-- ==== Sys2Proof/Word.lean ====
section
/-! DEFINITION. The byte of the FCR: every multi-byte value of the spec is a string of these (00_scope.md R11, R12). -/

namespace Sys2Proof

/-- One byte (R11). -/
abbrev Byte := BitVec 8

/-- A byte string; byte `i` of it is element `i` (R12). -/
abbrev Bytes := List Byte

end Sys2Proof
end

