-- ==== Sys2Proof/Machine/Bytes.lean ====
section
/-! DEFINITION. Byte order: little-endian everywhere and fixed (20_memory.md R38 to R42). The one place that assembles and
splits multi-byte values (00_scope.md R12). -/

namespace Sys2Proof.Machine

/-- `B[i]`; 0 past the end, where no rule reads (R12). -/
def byteAt (b : Bytes) (i : Nat) : Byte := b.getD i 0

/-- `le_32`: the first byte is the least significant (R12, R38). -/
def le32 (b0 b1 b2 b3 : Byte) : BitVec 32 := b3 ++ b2 ++ b1 ++ b0

/-- `le_24` (R12, R39). -/
def le24 (b0 b1 b2 : Byte) : BitVec 24 := b2 ++ b1 ++ b0

/-- `bytes_le(v, 4)` (R12, R38, R41). -/
def bytesLe32 (v : BitVec 32) : Bytes :=
  [v.extractLsb' 0 8, v.extractLsb' 8 8, v.extractLsb' 16 8, v.extractLsb' 24 8]

/-- `bytes_le(v, 2)` (R12, R41). -/
def bytesLe16 (v : BitVec 16) : Bytes :=
  [v.extractLsb' 0 8, v.extractLsb' 8 8]

/-- A flag as a byte of a response: 0 or 1 (30_encoding.md R63, the DECODE row). -/
def boolByte (b : Bool) : Byte := if b then 1 else 0

end Sys2Proof.Machine
end

