-- ==== Sys2Proof/Config.lean ====
section
/-! DEFINITION. What an FCR is built with: the configuration parameters of 00_scope.md R7, the constants of R8 and R9, and
the constraints of R10 under which an FCR may be built. -/

namespace Sys2Proof

/-- `WIRE_SIZE`: bytes of a wire record (R8). -/
def wireSize : Nat := 16
/-- `PAYLOAD_SIZE`: bytes of a payload (R8). -/
def payloadSize : Nat := 8
/-- `CHUNK_SIZE`: bytes of a DataPacket's chunk (R8). -/
def chunkSize : Nat := 7
/-- `VIN_MAX`: the most bytes READ_VIN reads (R8). -/
def vinMax : Nat := 17
/-- `REQ_PGN`: the transport-request PGN (R8). -/
def reqPgn : BitVec 16 := 0xEA00
/-- `REQ_DA`: the destination of the VIN request (R8, D10). -/
def reqDa : Byte := 0xF9
/-- `TARGET_PGN`: the PGN requested and announced (R8). -/
def targetPgn : BitVec 24 := 0x00FEEC
/-- `REQ_LEN`: the length byte of the VIN request (R8). -/
def reqLen : Byte := 3
/-- `ACC_CAP`: bytes of the accumulator space (R9, R36). -/
def accCap : Nat := 259

/-- The parameters of R7. "They are fixed when the instance is built: no command reads or writes them." -/
structure Config where
  /-- `P_TPCM_PGN`: the transport-control PGN. -/
  tpcmPgn : BitVec 16
  /-- `P_TPDT_PGN`: the transport-data PGN. -/
  tpdtPgn : BitVec 16
  /-- `P_PGN_MASK`: the bits of identifier [23:8] that are compared. -/
  pgnMask : BitVec 16
  /-- `P_BAM_CODE`: the broadcast-announce control code. -/
  bamCode : Byte
  /-- `P_RESP_SA`: the expected responder address. -/
  respSa : Byte
  /-- `P_REQ_PRIO`: the priority of the VIN request; three bits, so R10's bound holds by its width. -/
  reqPrio : BitVec 3
  /-- `P_STRICT_SEQ`: true is strict mode (1), false the reference behaviour (0). -/
  strictSeq : Bool
  deriving DecidableEq, Repr

/-- R10's first constraint, the one the widths do not already give: the masked transport PGNs differ. -/
def Config.wf (c : Config) : Bool :=
  (c.tpcmPgn &&& c.pgnMask) != (c.tpdtPgn &&& c.pgnMask)

/-- `P_RESP_SA` is OPEN (R7, D8, I12): "no default". A constant with no body, so no proof can lean on a value of it
(log 2). -/
opaque Config.openRespSa : Byte

/-- The default values of R7; `P_RESP_SA` has none and is given. -/
def Config.withDefaults (respSa : Byte) : Config where
  tpcmPgn := 0xEC00
  tpdtPgn := 0xEB00
  pgnMask := 0xFF00
  bamCode := 0x20
  respSa := respSa
  reqPrio := 6
  strictSeq := false

/-- The parameters as numbers that somebody asks an FCR to be built with, before R10 is checked. -/
structure ConfigArgs where
  tpcmPgn : BitVec 16
  tpdtPgn : BitVec 16
  pgnMask : BitVec 16
  bamCode : Byte
  respSa : Byte
  reqPrio : Nat
  strictSeq : Nat
  deriving DecidableEq, Repr

/-- R10: "A model refuses to build an instance from any other configuration". -/
def Config.build (a : ConfigArgs) : Option Config :=
  if (a.tpcmPgn &&& a.pgnMask) != (a.tpdtPgn &&& a.pgnMask) ∧ a.reqPrio ≤ 7 ∧ a.strictSeq ≤ 1 then
    some
      { tpcmPgn := a.tpcmPgn, tpdtPgn := a.tpdtPgn, pgnMask := a.pgnMask, bamCode := a.bamCode, respSa := a.respSa,
        reqPrio := BitVec.ofNat 3 a.reqPrio, strictSeq := a.strictSeq == 1 }
  else none

end Sys2Proof
end

