-- ==== Sys2Proof/Syntax.lean ====
section
/-! DEFINITION. The commands of the FCR, the decoded frame they speak of, and `Instr`: one constructor per row of
spec/opcode_table.json. -/

namespace Sys2Proof

/-- The 8 payload bytes of a frame (00_scope.md R15); `b0` is payload byte 0. -/
structure Payload where
  b0 : Byte
  b1 : Byte
  b2 : Byte
  b3 : Byte
  b4 : Byte
  b5 : Byte
  b6 : Byte
  b7 : Byte
  deriving DecidableEq, Repr

/-- The decoded frame `F = {id, ext, len, payload}` of R15. `len` is 8 bits because DECODE does not check it (C6). -/
structure Frame where
  id : BitVec 29
  ext : Bool
  len : Byte
  payload : Payload
  deriving DecidableEq, Repr

/-- The three classes of a frame (30_encoding.md R57, 41_reassembler.md R85). -/
inductive FrameClass where
  | ctrl
  | data
  | unm
  deriving DecidableEq, Repr

/-- A command: "a transaction `(op, opd)`", which carries the length of `opd` (30_encoding.md R62). -/
structure Command where
  op : Byte
  opd : Bytes
  deriving DecidableEq, Repr

/-- The instructions: the seven commands (R63), the six rows of reserved opcodes (R66), the three frame classes (R57) and
the three pseudo-commands of the assembler (R70). -/
inductive Instr where
  /-- `ENCODE`: `id` is the 32-bit operand as given, `pl` the payload bytes supplied (40_codec.md R73). -/
  | encode (id : BitVec 32) (len : Byte) (pl : Bytes)
  /-- `DECODE`: the raw byte string, any length (R76). -/
  | decode (raw : Bytes)
  /-- `BUILD_REQ`: the requester's source address (R78). -/
  | buildReq (sa : Byte)
  /-- `RX`: the raw byte string, any length (41_reassembler.md R88). -/
  | rx (raw : Bytes)
  /-- `READ_VIN` (R99). -/
  | readVin
  /-- `STATUS` (R100). -/
  | status
  /-- `RESET` (R101). -/
  | reset
  /-- Reserved opcode `0x00` with any operand (R66). -/
  | reserved00 (opd : Bytes)
  /-- Reserved opcodes `0x08` to `0x0F`; `low` is the opcode's free bits. -/
  | reserved08 (low : BitVec 3) (opd : Bytes)
  /-- Reserved opcodes `0x10` to `0x1F`. -/
  | reserved10 (low : BitVec 4) (opd : Bytes)
  /-- Reserved opcodes `0x20` to `0x3F`. -/
  | reserved20 (low : BitVec 5) (opd : Bytes)
  /-- Reserved opcodes `0x40` to `0x7F`. -/
  | reserved40 (low : BitVec 6) (opd : Bytes)
  /-- Reserved opcodes `0x80` to `0xFF`. -/
  | reserved80 (low : BitVec 7) (opd : Bytes)
  /-- `FRAME_CTRL`: a received frame that classifies `CTRL` (R57, R85). -/
  | frameCtrl (F : Frame)
  /-- `FRAME_DATA`: a received frame that classifies `DATA` (R57, R85). -/
  | frameData (F : Frame)
  /-- `FRAME_UNM`: a received frame of neither class (R57, R95). -/
  | frameUnm (F : Frame)
  /-- `RXF`: RX of the record that ENCODE gives for the operands (30_encoding.md R70). -/
  | rxf (id : BitVec 32) (len : Byte) (data : Bytes)
  /-- `RXW`: RX of a record with any identifier word `w` (R70). -/
  | rxw (w : BitVec 32) (len : Byte) (data : Payload)
  /-- `BEGIN`: RESET, then BUILD_REQ (R70). -/
  | begin (sa : Byte)
  deriving DecidableEq, Repr

end Sys2Proof
end

