-- ==== Sys2Proof/Machine/Operands.lean ====
section
/-! DEFINITION. The operand forms of the FCR: the wire record and its two directions (30_encoding.md R50 to R53, 40_codec.md
R74, R76), the VIN request (R56, R78), the fields of a decoded frame (00_scope.md R16), the frame classification (41_reassembler.md
R85) and the permissive ASCII decoding (R98). All pure: no state is read here (R72, R86). -/

namespace Sys2Proof.Machine

/-- The payload as a byte string, in order (20_memory.md R40). -/
def payloadBytes (p : Payload) : Bytes := [p.b0, p.b1, p.b2, p.b3, p.b4, p.b5, p.b6, p.b7]

/-- The payload whose byte `k` is `f k`. -/
def payloadOf (f : Nat → Byte) : Payload := ⟨f 0, f 1, f 2, f 3, f 4, f 5, f 6, f 7⟩

/-- The 16-byte wire record of an identifier word, a length byte and a payload; bytes 5 to 7 are zero (R50, R58). -/
def wireRecord (w : BitVec 32) (len : Byte) (p : Payload) : Bytes :=
  bytesLe32 w ++ [len, 0, 0, 0] ++ payloadBytes p

/-- The extended-format flag of the identifier word, `W[31]` (R51). -/
def extFlag : BitVec 32 := 0x80000000

/-- Payload byte `k` that ENCODE writes: `pl[k]` below both `n` and `len`, zero from either on (R53, R74, C5). -/
def paddedByte (len : Byte) (pl : Bytes) (k : Nat) : Byte :=
  if k < pl.length ∧ k < len.toNat then byteAt pl k else 0

/-- When ENCODE answers InvalidPayload: `n > 8`, `len > 8` or `id_in >= 2^29` (R74, D13). -/
def encodeRefused (id : BitVec 32) (len : Byte) (pl : Bytes) : Bool :=
  decide (payloadSize < pl.length) || decide (8 < len.toNat) || decide (2 ^ 29 ≤ id.toNat)

/-- ENCODE's record, or none where it raises InvalidPayload (R74). -/
def encodeRecord (id : BitVec 32) (len : Byte) (pl : Bytes) : Option Bytes :=
  if encodeRefused id len pl then none
  else some (wireRecord (extFlag ||| id) len (payloadOf (paddedByte len pl)))

/-- `decode(raw)`: none is MalformedFrame. Bytes 5 to 7 and `W[30:29]` are ignored (R76). -/
def decodeRecord (raw : Bytes) : Option Frame :=
  if raw.length = wireSize then
    let w := le32 (byteAt raw 0) (byteAt raw 1) (byteAt raw 2) (byteAt raw 3)
    some
      { id := w.extractLsb' 0 29, ext := w.getLsbD 31, len := byteAt raw 4,
        payload := payloadOf fun k => byteAt raw (8 + k) }
  else none

/-- DECODE's result bytes: id (bits 31 to 29 zero), ext, len, payload (R63, R76). -/
def frameResult (F : Frame) : Bytes :=
  bytesLe32 (F.id.setWidth 32) ++ [boolByte F.ext, F.len] ++ payloadBytes F.payload

/-- The identifier word of a decoded frame, `W[30:29]` zero (R51). -/
def frameWord (F : Frame) : BitVec 32 :=
  (if F.ext then extFlag else 0) ||| F.id.setWidth 32

/-- The wire record of a decoded frame: what the bus carries for it. -/
def frameRecord (F : Frame) : Bytes := wireRecord (frameWord F) F.len F.payload

/-- The 29-bit identifier of the VIN request: `P_REQ_PRIO<<26 | 0<<24 | (REQ_PGN | REQ_DA)<<8 | sa` (R56, R78). -/
def requestId (prio : BitVec 3) (sa : Byte) : BitVec 29 :=
  prio ++ (0 : BitVec 2) ++ (reqPgn ||| reqDa.setWidth 16) ++ sa

/-- The payload of the VIN request: `TARGET_PGN` little-endian, then zeros (R39, R56). -/
def requestPayload : Payload :=
  ⟨targetPgn.extractLsb' 0 8, targetPgn.extractLsb' 8 8, targetPgn.extractLsb' 16 8, 0, 0, 0, 0, 0⟩

/-- The record BUILD_REQ answers (R78). -/
def requestRecord (prio : BitVec 3) (sa : Byte) : Bytes :=
  wireRecord (extFlag ||| (requestId prio sa).setWidth 32) reqLen requestPayload

/-- `PGNF(F) = F.id[23:8]` (R16). -/
def pgnf (F : Frame) : BitVec 16 := F.id.extractLsb' 8 16

/-- `SA(F) = F.id[7:0]` (R16). -/
def sourceAddress (F : Frame) : Byte := F.id.extractLsb' 0 8

/-- The target PGN embedded in a ControlPacket, `le_24(payload[5..7])` (R39, R54). -/
def embeddedPgn (F : Frame) : BitVec 24 := le24 F.payload.b5 F.payload.b6 F.payload.b7

/-- A ControlPacket's `total_length`, payload byte 1 (R54). -/
def totalLength (F : Frame) : Byte := F.payload.b1

/-- A ControlPacket's `expected_packet_count`, payload byte 2 (R54). -/
def expectedPackets (F : Frame) : Byte := F.payload.b2

/-- A DataPacket's `sequence_number`, payload byte 0 (R55). -/
def sequenceNumber (F : Frame) : Byte := F.payload.b0

/-- A DataPacket's chunk, payload bytes 1 to 7, whatever `F.len` says (R40, R55). -/
def chunk (F : Frame) : Bytes :=
  [F.payload.b1, F.payload.b2, F.payload.b3, F.payload.b4, F.payload.b5, F.payload.b6, F.payload.b7]

/-- `CLASSIFY(F)` in the order R85 tests (R57, R85). -/
def classify (c : Config) (F : Frame) : FrameClass :=
  if (pgnf F &&& c.pgnMask) == (c.tpcmPgn &&& c.pgnMask) && sourceAddress F == c.respSa
      && F.payload.b0 == c.bamCode && embeddedPgn F == targetPgn then .ctrl
  else if (pgnf F &&& c.pgnMask) == (c.tpdtPgn &&& c.pgnMask) && sourceAddress F == c.respSa then .data
  else .unm

/-- `vin_decode(B)`: bytes up to `0x7F` kept in order, the others dropped (R98, D23). -/
def vinDecode (b : Bytes) : Bytes := b.filter fun x => decide (x.toNat ≤ 0x7F)

end Sys2Proof.Machine
end

