-- ==== Sys2Proof/WellFormed.lean ====
section
/-! DEFINITION. Which terms of `Instr` are instructions of an FCR with configuration `c`. Every operand of a command is well
formed, wrong values included, because the block answers each one (30_encoding.md R63, R114). What can be ill formed is a frame
written under a class it does not have (R57) and an RXF that the assembler rejects (R70). -/

namespace Sys2Proof

/-- The check, one line per constructor. -/
def Instr.wf (c : Config) : Instr → Bool
  | .encode _ _ _ => true
  | .decode _ => true
  | .buildReq _ => true
  | .rx _ => true
  | .readVin => true
  | .status => true
  | .reset => true
  | .reserved00 _ => true
  | .reserved08 _ _ => true
  | .reserved10 _ _ => true
  | .reserved20 _ _ => true
  | .reserved40 _ _ => true
  | .reserved80 _ _ => true
  | .frameCtrl F => Machine.classify c F == .ctrl
  | .frameData F => Machine.classify c F == .data
  | .frameUnm F => Machine.classify c F == .unm
  | .rxf id len data => !Machine.encodeRefused id len data
  | .rxw _ _ _ => true
  | .begin _ => true

/-- The instructions the block itself executes from its command port: neither a frame class, which it meets inside RX, nor a
pseudo-command, which "the block never sees" (R70). -/
def Instr.isCommand : Instr → Bool
  | .encode _ _ _ => true
  | .decode _ => true
  | .buildReq _ => true
  | .rx _ => true
  | .readVin => true
  | .status => true
  | .reset => true
  | .reserved00 _ => true
  | .reserved08 _ _ => true
  | .reserved10 _ _ => true
  | .reserved20 _ _ => true
  | .reserved40 _ _ => true
  | .reserved80 _ _ => true
  | .frameCtrl _ => false
  | .frameData _ => false
  | .frameUnm _ => false
  | .rxf _ _ _ => false
  | .rxw _ _ _ => false
  | .begin _ => false

end Sys2Proof
end

