-- ==== Sys2Proof/Decode.lean ====
section
/-! DEFINITION. Decoding a command (30_encoding.md R62, R63, R66, R67) and a frame (R57), both total; then the encoder, the
expansion of the pseudo-commands (R70), and the host's table words. -/

namespace Sys2Proof

open Machine (le32 bytesLe32 byteAt decodeRecord encodeRecord wireRecord frameRecord classify)

/-- Why a command names no instruction: an operand length its opcode does not take (R67). -/
inductive Reject where
  | operandLength (op : Byte)
  deriving DecidableEq, Repr

/-- What the decoder reads. -/
inductive Decoded where
  | instr (i : Instr)
  | reject (r : Reject)
  deriving DecidableEq, Repr

/-- A reserved opcode, by the row of the opcode table it falls in: the row is the opcode's highest set bit from bit 3 up (R66). -/
def decodeReserved (op : Byte) (opd : Bytes) : Instr :=
  if op.extractLsb' 7 1 = 1 then .reserved80 (op.extractLsb' 0 7) opd
  else if op.extractLsb' 6 1 = 1 then .reserved40 (op.extractLsb' 0 6) opd
  else if op.extractLsb' 5 1 = 1 then .reserved20 (op.extractLsb' 0 5) opd
  else if op.extractLsb' 4 1 = 1 then .reserved10 (op.extractLsb' 0 4) opd
  else if op.extractLsb' 3 1 = 1 then .reserved08 (op.extractLsb' 0 3) opd
  else .reserved00 opd

/-- ENCODE's operand fields (40_codec.md R73); fewer than five bytes are a wrong length (R67). -/
def decodeEncode (opd : Bytes) : Decoded :=
  match opd with
  | b0 :: b1 :: b2 :: b3 :: len :: pl => .instr (.encode (le32 b0 b1 b2 b3) len pl)
  | _ => .reject (.operandLength 0x01)

/-- BUILD_REQ takes exactly one byte (R67). -/
def decodeBuildReq (opd : Bytes) : Decoded :=
  match opd with
  | [sa] => .instr (.buildReq sa)
  | _ => .reject (.operandLength 0x03)

/-- READ_VIN, STATUS and RESET take no operand (R67). -/
def decodeNoOperand (op : Byte) (i : Instr) (opd : Bytes) : Decoded :=
  match opd with
  | [] => .instr i
  | _ :: _ => .reject (.operandLength op)

/-- The opcode map of R63, with the operand shapes of R67. -/
def decode (c : Command) : Decoded :=
  if c.op = 0x01 then decodeEncode c.opd
  else if c.op = 0x02 then .instr (.decode c.opd)
  else if c.op = 0x03 then decodeBuildReq c.opd
  else if c.op = 0x04 then .instr (.rx c.opd)
  else if c.op = 0x05 then decodeNoOperand 0x05 .readVin c.opd
  else if c.op = 0x06 then decodeNoOperand 0x06 .status c.opd
  else if c.op = 0x07 then decodeNoOperand 0x07 .reset c.opd
  else .instr (decodeReserved c.op c.opd)

/-- The frame class rows of the table as instructions: the class of `F` chooses the row (R57). -/
def frameInstr (c : Config) (F : Frame) : Instr :=
  match classify c F with
  | .ctrl => .frameCtrl F
  | .data => .frameData F
  | .unm => .frameUnm F

/-- The second opcode map: the frame instruction a raw byte string is, or none where it is malformed (R57, R60). -/
def decodeFrame (c : Config) (raw : Bytes) : Option Instr := (decodeRecord raw).map (frameInstr c)

/-- The commands of an instruction, from the encoding table of R63 and the expansions of R70. A frame is presented by RX.
An RXF that the assembler rejects has no commands. -/
def encode : Instr → List Command
  | .encode id len pl => [⟨0x01, bytesLe32 id ++ len :: pl⟩]
  | .decode raw => [⟨0x02, raw⟩]
  | .buildReq sa => [⟨0x03, [sa]⟩]
  | .rx raw => [⟨0x04, raw⟩]
  | .readVin => [⟨0x05, []⟩]
  | .status => [⟨0x06, []⟩]
  | .reset => [⟨0x07, []⟩]
  | .reserved00 opd => [⟨0x00, opd⟩]
  | .reserved08 low opd => [⟨(1 : BitVec 5) ++ low, opd⟩]
  | .reserved10 low opd => [⟨(1 : BitVec 4) ++ low, opd⟩]
  | .reserved20 low opd => [⟨(1 : BitVec 3) ++ low, opd⟩]
  | .reserved40 low opd => [⟨(1 : BitVec 2) ++ low, opd⟩]
  | .reserved80 low opd => [⟨(1 : BitVec 1) ++ low, opd⟩]
  | .frameCtrl F => [⟨0x04, frameRecord F⟩]
  | .frameData F => [⟨0x04, frameRecord F⟩]
  | .frameUnm F => [⟨0x04, frameRecord F⟩]
  | .rxf id len data =>
    match encodeRecord id len data with
    | some r => [⟨0x04, r⟩]
    | none => []
  | .rxw w len data => [⟨0x04, wireRecord w len data⟩]
  | .begin sa => [⟨0x07, []⟩, ⟨0x03, [sa]⟩]

/-- The commands of the block that an instruction stands for: itself, or what the assembler makes of it (R70). -/
def expand : Instr → List Instr
  | .frameCtrl F => [.rx (frameRecord F)]
  | .frameData F => [.rx (frameRecord F)]
  | .frameUnm F => [.rx (frameRecord F)]
  | .rxf id len data =>
    match encodeRecord id len data with
    | some r => [.rx r]
    | none => []
  | .rxw w len data => [.rx (wireRecord w len data)]
  | .begin sa => [.reset, .buildReq sa]
  | .encode id len pl => [.encode id len pl]
  | .decode raw => [.decode raw]
  | .buildReq sa => [.buildReq sa]
  | .rx raw => [.rx raw]
  | .readVin => [.readVin]
  | .status => [.status]
  | .reset => [.reset]
  | .reserved00 opd => [.reserved00 opd]
  | .reserved08 low opd => [.reserved08 low opd]
  | .reserved10 low opd => [.reserved10 low opd]
  | .reserved20 low opd => [.reserved20 low opd]
  | .reserved40 low opd => [.reserved40 low opd]
  | .reserved80 low opd => [.reserved80 low opd]

/-- The rows of the opcode table on the opcode byte, as (mask, match) pairs, in the table's order (R63, R66). -/
def opcodeRows : List (Byte × Byte) :=
  [(0xFF, 0x01), (0xFF, 0x02), (0xFF, 0x03), (0xFF, 0x04), (0xFF, 0x05), (0xFF, 0x06), (0xFF, 0x07),
   (0xFF, 0x00), (0xF8, 0x08), (0xF0, 0x10), (0xE0, 0x20), (0xC0, 0x40), (0x80, 0x80)]

/-- The table's row of each instruction that has an opcode, as (mask, match). Frames and pseudo-commands have none (R57, R70). -/
def opcodeRow : Instr → Option (Byte × Byte)
  | .encode _ _ _ => some (0xFF, 0x01)
  | .decode _ => some (0xFF, 0x02)
  | .buildReq _ => some (0xFF, 0x03)
  | .rx _ => some (0xFF, 0x04)
  | .readVin => some (0xFF, 0x05)
  | .status => some (0xFF, 0x06)
  | .reset => some (0xFF, 0x07)
  | .reserved00 _ => some (0xFF, 0x00)
  | .reserved08 _ _ => some (0xF8, 0x08)
  | .reserved10 _ _ => some (0xF0, 0x10)
  | .reserved20 _ _ => some (0xE0, 0x20)
  | .reserved40 _ _ => some (0xC0, 0x40)
  | .reserved80 _ _ => some (0x80, 0x80)
  | .frameCtrl _ => none
  | .frameData _ => none
  | .frameUnm _ => none
  | .rxf _ _ _ => none
  | .rxw _ _ _ => none
  | .begin _ => none

/-! ### Words of the opcode table -/

/-- How many operand bytes a table word is given where its own bits do not say: the fewest for which the command is the
row's instruction; a whole record for DECODE and RX (log 17). -/
def tableOperandLength (op : Byte) : Nat :=
  if op = 0x01 then 5
  else if op = 0x02 then 16
  else if op = 0x03 then 1
  else if op = 0x04 then 16
  else 0

/-- The bytes of `w` from bit 8 up, `n` of them. -/
def operandBytes (w : Nat) : Nat → Bytes
  | 0 => []
  | n + 1 => BitVec.ofNat 8 (w / 256) :: operandBytes (w / 256) n

/-- The record whose identifier word is `w` and whose other bytes are zero. -/
def zeroRecord (w : Nat) : Bytes := wireRecord (BitVec.ofNat 32 w) 0 ⟨0, 0, 0, 0, 0, 0, 0, 0⟩

/-- The command a word of the opcode table is: the table's CMD rows number the opcode byte and what follows it, and its FRAME
rows, the only ones of 32 bits, number the identifier word `W` of a record, which the host presents by RX (log 17). -/
def tableCommand (nbits w : Nat) : Command :=
  if nbits = 32 then ⟨0x04, zeroRecord w⟩
  else
    let op : Byte := BitVec.ofNat 8 w
    ⟨op, operandBytes w (max (nbits / 8 - 1) (tableOperandLength op))⟩

/-- The instruction the decoders read from a word of the opcode table. -/
def decodeTableWord (nbits w : Nat) : Option Instr :=
  if nbits = 32 then decodeFrame (Config.withDefaults Config.openRespSa) (zeroRecord w)
  else
    match decode (tableCommand nbits w) with
    | .instr i => some i
    | .reject _ => none

end Sys2Proof
end

