-- ==== Sys2Proof/Machine/State.lean ====
section
/-! DEFINITION. The state of one FCR (10_state.md R20), what it holds at reset (R33), and the reasons a step can stop. -/

namespace Sys2Proof.Machine

/-- `RS`, the reassembler state: "States: `Idle`, `Collecting`, `Complete`" (R21). The 2-bit code 3 never occurs and is not
representable here (log 11). -/
inductive Phase where
  | idle
  | collecting
  | complete
  deriving DecidableEq, Repr

/-- The status of a response (30_encoding.md R64). "The codes `0x05` to `0xFF` are never returned." -/
inductive Status where
  | ok
  | invalidPayload
  | malformedFrame
  | notComplete
  | illegalCommand
  deriving DecidableEq, Repr

/-- The outcome of an RX (R65). -/
inductive RxOutcome where
  | ignored
  | started
  | appended
  | completed
  | restarted
  deriving DecidableEq, Repr

/-- A response: a status and the result bytes (R64). -/
structure Response where
  status : Status
  result : Bytes
  deriving DecidableEq, Repr

/-- One FCR: the six elements of R20, and around them what the step needs and the spec keeps outside the block. -/
structure State where
  /-- `RS` (R21). -/
  rs : Phase
  /-- `TL`, the announced total length (R22). -/
  tl : Byte
  /-- `EPC`, the expected packet count (R23). -/
  epc : Byte
  /-- `RPC`, the received-packet counter (R24). -/
  rpc : Byte
  /-- `ACC_LEN`, the accumulator length in bytes (R25). -/
  accLen : BitVec 9
  /-- `ACC`: the bytes that hold values, by address, addresses rising. A byte not listed has no value (R26; log 8). -/
  acc : List Host.Cell
  /-- The configuration (00_scope.md R7). Not state (R30): no instruction writes it (log 1). -/
  cfg : Config
  /-- Commands the host has presented and the block has not executed, oldest first (R62; log 5). -/
  port : List Command
  /-- Responses the block has given, oldest first (R64; log 6). -/
  out : List Response
  deriving DecidableEq, Repr

/-- Why the machine stops. The spec has no faults (60_exceptions.md R112): both are in states no run reaches. -/
inductive Fault where
  /-- Raised by a DATA frame (RX, FRAME_DATA, RXF, RXW) whose append would write past `ACC[258]`, an address that does not exist
  (20_memory.md R36). Safe: R29 proves that no run comes here (log 10). -/
  | accOutOfRange
  /-- Raised by READ_VIN when it would read a byte of `ACC` that has no value (R26). Safe: R31 rules it out in every run
  (log 8). -/
  | accNoValue
  deriving DecidableEq, Repr

/-- Why the machine gives no meaning. -/
inductive Refusal where
  /-- Raised by an arm of `exec` for an instruction that has no meaning yet. Safe. No arm raises it. -/
  | notModelled (mnemonic : String)
  /-- Raised by `step` where the configuration is one that R10 forbids: there is no such FCR (I13). Safe (log 4). -/
  | illFormedConfig
  /-- Raised by RXF where ENCODE would return InvalidPayload: "an assembly error" (30_encoding.md R70). Safe: there is no
  command to execute (log 16). -/
  | assemblyError
  deriving DecidableEq, Repr

/-- An FCR just built with configuration `c`: the reset state of R33, no command presented, no response given (70_reset_and_hazards.md
R127). `ACC` is unspecified: no byte has a value. -/
def State.resetWith (c : Config) : State where
  rs := .idle
  tl := 0
  epc := 0
  rpc := 0
  accLen := 0
  acc := []
  cfg := c
  port := []
  out := []

/-- The machine right after reset: the defaults of R7, and for the parameter that has none a constant nothing is known of
(log 2, log 3). -/
def State.reset : State := State.resetWith (Config.withDefaults Config.openRespSa)

/-- Building an FCR (R10, R127): refused where the configuration is not well formed. -/
def State.create (a : ConfigArgs) : Option State := (Config.build a).map State.resetWith

end Sys2Proof.Machine
end

