-- ==== Sys2Proof/Machine/Flags.lean ====
section
/-! DEFINITION. The FCR has no flags register (10_state.md R28). Its condition information is the state, the outcome and the
status: here are their codes, and the two tests that decide a DATA frame's fate. -/

namespace Sys2Proof.Machine

/-- The encoding of `RS`: Idle 0, Collecting 1, Complete 2 (R21, D27). -/
def Phase.code : Phase → Byte
  | .idle => 0
  | .collecting => 1
  | .complete => 2

/-- Status codes (30_encoding.md R64). -/
def Status.code : Status → Byte
  | .ok => 0x00
  | .invalidPayload => 0x01
  | .malformedFrame => 0x02
  | .notComplete => 0x03
  | .illegalCommand => 0x04

/-- Outcome codes (R65). -/
def RxOutcome.code : RxOutcome → Byte
  | .ignored => 0x00
  | .started => 0x01
  | .appended => 0x02
  | .completed => 0x03
  | .restarted => 0x04

/-- A response as the host reads it: the status byte, then the result bytes (R64). -/
def Response.bytes (r : Response) : Bytes := r.status.code :: r.result

/-- `seq_ok(F)`: every DATA frame in reference mode; in strict mode the one numbered `RPC + 1` (41_reassembler.md R94). The sum
does not wrap (log 12). -/
def seqOk (s : State) (F : Frame) : Bool :=
  !s.cfg.strictSeq || decide ((sequenceNumber F).toNat = s.rpc.toNat + 1)

/-- The completion test: `L' >= TL`, unsigned, 9 bits against 8 (R92). -/
def completes (newLen : BitVec 9) (tl : Byte) : Bool := decide (tl.toNat ≤ newLen.toNat)

end Sys2Proof.Machine
end

