-- ==== Sys2Proof/Machine/Ops.lean ====
section
/-! DEFINITION. The shared operations: the accumulator space (00_scope.md R13, 20_memory.md R36), responding and raising an error
(R14), taking a command from the port (R62), and the reassembler's moves, one per frame class (41_reassembler.md R87 to R95). -/

namespace Sys2Proof.Machine

/-! ### The accumulator space -/

/-- The value of the byte at address `a`; none where it has no value (R26). -/
def cellGet : List Host.Cell → Nat → Option Byte
  | [], _ => none
  | (k, v) :: rest, a => if a = k then some v else cellGet rest a

/-- The cells with the byte at address `a` set, addresses kept rising. -/
def cellSet : List Host.Cell → Nat → Byte → List Host.Cell
  | [], a, v => [(a, v)]
  | (k, w) :: rest, a, v =>
    if a < k then (a, v) :: (k, w) :: rest
    else if a = k then (a, v) :: rest
    else (k, w) :: cellSet rest a v

/-- `MemWrite(a, |b|, b)` on cells: byte `i` of `b` goes to address `a + i` (R13, R40). -/
def cellsWrite (m : List Host.Cell) (a : Nat) : Bytes → List Host.Cell
  | [] => m
  | b :: bs => cellsWrite (cellSet m a b) (a + 1) bs

/-- `MemRead(a, n)` on cells; none where one of the bytes has no value (R13, R26). -/
def cellsRead (m : List Host.Cell) (a : Nat) : Nat → Option Bytes
  | 0 => some []
  | n + 1 => (cellGet m a).bind fun b => (cellsRead m (a + 1) n).map (b :: ·)

/-- The canonical form of `ACC`: addresses strictly rising, each below `ACC_CAP`. An unlisted byte has no value, so no entry
equals what an unlisted address reads as. -/
def accWf (m : List Host.Cell) : Bool :=
  decide ((m.map Prod.fst).Pairwise (· < ·)) && m.all fun c => decide (c.1 < accCap)

/-! ### Responding -/

/-- `respond(s, R)`: exactly one response, after those already given (R14, R62, R64). -/
def State.respond (s : State) (st : Status) (r : Bytes) : State :=
  { s with out := s.out ++ [⟨st, r⟩] }

/-- `respond(OK, R)` as the end of a command. -/
def answer (s : State) (r : Bytes) : Host.Outcome State Fault Refusal := .next (s.respond .ok r)

/-- `raise E`: the FCR's whole exception mechanism. The command ends with the error's status and no result, and no state element
is written; nothing is saved, masked or transferred, so there is no return either (R14, 60_exceptions.md R117, R118). -/
def raiseError (s : State) (e : Status) : Host.Outcome State Fault Refusal := .next (s.respond e [])

/-- The end of an RX: `respond(OK, [outcome])` (R65, R88). -/
def answerRx (s : State) (o : RxOutcome) : Host.Outcome State Fault Refusal := answer s [o.code]

/-! ### The command port -/

/-- The host presents a command: it is executed after those presented before (R47, R62). -/
def State.present (s : State) (c : Command) : State := { s with port := s.port ++ [c] }

/-- The oldest command of the port, and the state without it; none where the host has presented nothing (R62). -/
def fetch (s : State) : Option (Command × State) :=
  match s.port with
  | [] => none
  | c :: rest => some (c, { s with port := rest })

/-- A block with nothing to execute "is idle between commands and holds its state" (60_exceptions.md R125; log 7). -/
def idleStep (s : State) : Host.Outcome State Fault Refusal := .next s

/-- What the block does with a command whose operand has the wrong length: IllegalCommand (30_encoding.md R67). -/
def rejectCommand (r : Reject) (s : State) : Host.Outcome State Fault Refusal :=
  match r with
  | .operandLength _ => raiseError s .illegalCommand

/-! ### The reassembler -/

/-- `start(F)`: record a new retrieval from a CTRL frame (R87). "The previous contents of `ACC` become unobservable": with
`ACC_LEN` zero no byte has a value (R26; log 9). -/
def State.start (s : State) (F : Frame) : State :=
  { s with rs := .collecting, tl := totalLength F, epc := expectedPackets F, rpc := 0, accLen := 0, acc := [] }

/-- The reset state of R33 in an FCR that keeps its configuration and its host's queues (R101, R128). -/
def State.clear (s : State) : State :=
  { s with rs := .idle, tl := 0, epc := 0, rpc := 0, accLen := 0, acc := [] }

/-- The state after `append(F)`: chunk at `ACC_LEN`, length and counter moved on, Complete if the test says so (R91, R92). -/
def State.append (s : State) (F : Frame) : State :=
  { s with
    acc := cellsWrite s.acc s.accLen.toNat (chunk F)
    accLen := s.accLen + 7
    rpc := s.rpc + 1
    rs := if completes (s.accLen + 7) s.tl then .complete else .collecting }

/-- `append(F)` and its response. Past the end of `ACC` there is no address to write, which R29 rules out (log 10). -/
def appendFrame (s : State) (F : Frame) : Host.Outcome State Fault Refusal :=
  if s.accLen.toNat + chunkSize ≤ accCap then
    answerRx (s.append F) (if completes (s.accLen + 7) s.tl then .completed else .appended)
  else .fault .accOutOfRange

/-- A CTRL frame: starts in Idle, restarts in Collecting, is ignored in Complete (R88, R89, R90, R93). -/
def receiveCtrl (s : State) (F : Frame) : Host.Outcome State Fault Refusal :=
  match s.rs with
  | .idle => answerRx (s.start F) .started
  | .collecting => answerRx (s.start F) .restarted
  | .complete => answerRx s .ignored

/-- A DATA frame: appended in Collecting if its sequence number is accepted, ignored otherwise (R88, R89, R91, R93, R94). -/
def receiveData (s : State) (F : Frame) : Host.Outcome State Fault Refusal :=
  match s.rs with
  | .idle => answerRx s .ignored
  | .collecting => if seqOk s F then appendFrame s F else answerRx s .ignored
  | .complete => answerRx s .ignored

/-- An UNM frame: ignored in every state (R95). -/
def receiveUnm (s : State) : Host.Outcome State Fault Refusal := answerRx s .ignored

/-- RX after its decode: classify, then the class's move (R88). -/
def receive (s : State) (F : Frame) : Host.Outcome State Fault Refusal :=
  match classify s.cfg F with
  | .ctrl => receiveCtrl s F
  | .data => receiveData s F
  | .unm => receiveUnm s

/-- RX of a raw byte string: the decode check comes before classification (R88, R114). -/
def receiveRaw (s : State) (raw : Bytes) : Host.Outcome State Fault Refusal :=
  match decodeRecord raw with
  | none => raiseError s .malformedFrame
  | some F => receive s F

/-- IllegalCommand for a reserved opcode: no state written, the operand ignored (R66). -/
def illegalCommand (s : State) : Host.Outcome State Fault Refusal := raiseError s .illegalCommand

/-- One instruction's effect, then another's from where the first one left the machine. -/
def andThen (o : Host.Outcome State Fault Refusal) (f : State → Host.Outcome State Fault Refusal) :
    Host.Outcome State Fault Refusal :=
  match o with
  | .next s => f s
  | .fault r => .fault r
  | .refused r => .refused r

end Sys2Proof.Machine
end

