-- ==== Sys2Proof/Machine/Codec.lean ====
section
/-! DEFINITION. The codec family: ENCODE, DECODE, BUILD_REQ (40_codec.md). Pure: no state element is read or written (R72). -/

namespace Sys2Proof.Machine

/-- ENCODE (R74). -/
def execEncode (id : BitVec 32) (len : Byte) (pl : Bytes) (s : State) : Host.Outcome State Fault Refusal :=
  match encodeRecord id len pl with
  | some r => answer s r
  | none => raiseError s .invalidPayload

/-- DECODE (R76). -/
def execDecode (raw : Bytes) (s : State) : Host.Outcome State Fault Refusal :=
  match decodeRecord raw with
  | some F => answer s (frameResult F)
  | none => raiseError s .malformedFrame

/-- BUILD_REQ (R78): reads the parameter `P_REQ_PRIO` and nothing else (R82). -/
def execBuildReq (sa : Byte) (s : State) : Host.Outcome State Fault Refusal :=
  answer s (requestRecord s.cfg.reqPrio sa)

end Sys2Proof.Machine
end

