-- ==== Sys2Proof/Machine/Frames.lean ====
section
/-! DEFINITION. The frame family: a received frame of each class (30_encoding.md R57, 41_reassembler.md R88). RX reaches these moves
through the classification; here the class is the instruction. -/

namespace Sys2Proof.Machine

/-- FRAME_CTRL (R87, R89, R90, R93). -/
def execFrameCtrl (F : Frame) (s : State) : Host.Outcome State Fault Refusal := receiveCtrl s F

/-- FRAME_DATA (R89, R91 to R94). -/
def execFrameData (F : Frame) (s : State) : Host.Outcome State Fault Refusal := receiveData s F

/-- FRAME_UNM (R95). -/
def execFrameUnm (_F : Frame) (s : State) : Host.Outcome State Fault Refusal := receiveUnm s

end Sys2Proof.Machine
end

