-- ==== Sys2Proof/Machine/Reassembler.lean ====
section
/-! DEFINITION. The reassembler family: RX, READ_VIN, STATUS, RESET (41_reassembler.md). -/

namespace Sys2Proof.Machine

/-- RX (R88). -/
def execRx (raw : Bytes) (s : State) : Host.Outcome State Fault Refusal := receiveRaw s raw

/-- The bytes READ_VIN reads: `k = min(TL, 17)` of them from address 0 (R99). -/
def vinBytes (s : State) : Option Bytes := cellsRead s.acc 0 (min s.tl.toNat vinMax)

/-- READ_VIN (R99): NotComplete outside Complete, else the count of ASCII bytes and the bytes. -/
def execReadVin (s : State) : Host.Outcome State Fault Refusal :=
  match s.rs with
  | .idle => raiseError s .notComplete
  | .collecting => raiseError s .notComplete
  | .complete =>
    match vinBytes s with
    | some b => answer s (BitVec.ofNat 8 (vinDecode b).length :: vinDecode b)
    | none => .fault .accNoValue

/-- STATUS (R100). -/
def execStatus (s : State) : Host.Outcome State Fault Refusal :=
  answer s ([s.rs.code, s.tl, s.epc, s.rpc] ++ bytesLe16 (s.accLen.setWidth 16))

/-- RESET (R101). -/
def execReset (s : State) : Host.Outcome State Fault Refusal := answer s.clear []

end Sys2Proof.Machine
end

