-- ==== Sys2Proof/Machine/Pseudo.lean ====
section
/-! DEFINITION. The pseudo-commands of the assembler (30_encoding.md R70): each has the effect of the commands it expands to. -/

namespace Sys2Proof.Machine

/-- RXF: RX of ENCODE's record; "an assembly error if ENCODE would return InvalidPayload". -/
def execRxf (id : BitVec 32) (len : Byte) (data : Bytes) (s : State) : Host.Outcome State Fault Refusal :=
  match encodeRecord id len data with
  | some r => receiveRaw s r
  | none => .refused .assemblyError

/-- RXW: RX of `bytes_le(w,4) len 00 00 00 data`. -/
def execRxw (w : BitVec 32) (len : Byte) (data : Payload) (s : State) : Host.Outcome State Fault Refusal :=
  receiveRaw s (wireRecord w len data)

/-- BEGIN: RESET, then BUILD_REQ, two commands and two responses. -/
def execBegin (sa : Byte) (s : State) : Host.Outcome State Fault Refusal :=
  andThen (execReset s) (execBuildReq sa)

end Sys2Proof.Machine
end

