-- ==== Sys2Proof/Machine/Reserved.lean ====
section
/-! DEFINITION. The six rows of reserved opcodes: each answers IllegalCommand and ignores its operand (30_encoding.md R66). -/

namespace Sys2Proof.Machine

/-- Opcode `0x00`. -/
def execReserved00 (_opd : Bytes) (s : State) : Host.Outcome State Fault Refusal := illegalCommand s

/-- Opcodes `0x08` to `0x0F`. -/
def execReserved08 (_low : BitVec 3) (_opd : Bytes) (s : State) : Host.Outcome State Fault Refusal := illegalCommand s

/-- Opcodes `0x10` to `0x1F`. -/
def execReserved10 (_low : BitVec 4) (_opd : Bytes) (s : State) : Host.Outcome State Fault Refusal := illegalCommand s

/-- Opcodes `0x20` to `0x3F`. -/
def execReserved20 (_low : BitVec 5) (_opd : Bytes) (s : State) : Host.Outcome State Fault Refusal := illegalCommand s

/-- Opcodes `0x40` to `0x7F`. -/
def execReserved40 (_low : BitVec 6) (_opd : Bytes) (s : State) : Host.Outcome State Fault Refusal := illegalCommand s

/-- Opcodes `0x80` to `0xFF`. -/
def execReserved80 (_low : BitVec 7) (_opd : Bytes) (s : State) : Host.Outcome State Fault Refusal := illegalCommand s

end Sys2Proof.Machine
end

