-- ==== Sys2Proof/Machine/Dispatch.lean ====
section
/-! DEFINITION. The meaning of each instruction: one arm per row of spec/opcode_table.json. -/

namespace Sys2Proof.Machine

def exec (i : Instr) (s : State) : Host.Outcome State Fault Refusal :=
  match i with
  | .encode id len pl => Sys2Proof.Machine.execEncode id len pl s
  | .decode raw => Sys2Proof.Machine.execDecode raw s
  | .buildReq sa => Sys2Proof.Machine.execBuildReq sa s
  | .rx raw => Sys2Proof.Machine.execRx raw s
  | .readVin => Sys2Proof.Machine.execReadVin s
  | .status => Sys2Proof.Machine.execStatus s
  | .reset => Sys2Proof.Machine.execReset s
  | .reserved00 opd => Sys2Proof.Machine.execReserved00 opd s
  | .reserved08 low opd => Sys2Proof.Machine.execReserved08 low opd s
  | .reserved10 low opd => Sys2Proof.Machine.execReserved10 low opd s
  | .reserved20 low opd => Sys2Proof.Machine.execReserved20 low opd s
  | .reserved40 low opd => Sys2Proof.Machine.execReserved40 low opd s
  | .reserved80 low opd => Sys2Proof.Machine.execReserved80 low opd s
  | .frameCtrl F => Sys2Proof.Machine.execFrameCtrl F s
  | .frameData F => Sys2Proof.Machine.execFrameData F s
  | .frameUnm F => Sys2Proof.Machine.execFrameUnm F s
  | .rxf id len data => Sys2Proof.Machine.execRxf id len data s
  | .rxw w len data => Sys2Proof.Machine.execRxw w len data s
  | .begin sa => Sys2Proof.Machine.execBegin sa s

end Sys2Proof.Machine
end

