-- ==== Sys2Proof/Machine/Step.lean ====
section
/-! DEFINITION. One step: the block takes the oldest command of its port and executes it as one atomic step (00_scope.md R5,
20_memory.md R44, R47). -/

namespace Sys2Proof.Machine

/-- One step of an FCR: it refuses a configuration that R10 forbids, idles on an empty port (R125), answers IllegalCommand to a
command of the wrong operand length (R67), and executes any other (R63). -/
def step (s : State) : Host.Outcome State Fault Refusal :=
  if s.cfg.wf then
    match fetch s with
    | none => idleStep s
    | some (c, t) =>
      match decode c with
      | .instr i => exec i t
      | .reject r => rejectCommand r t
  else .refused .illFormedConfig

/-- The state whose next step executes the table word `w`: the host has presented that command first (log 5, log 17). -/
def State.withFetchWord (s : State) (nbits w : Nat) : State := { s with port := tableCommand nbits w :: s.port }

end Sys2Proof.Machine
end

