-- ==== Sys2Proof/Safety.lean ====
section
/-! DEFINITION. What claims are stated in: the invariant of a reachable FCR (10_state.md R29, R31), runs driven by a host
(60_exceptions.md R121, 70_reset_and_hazards.md R129, R126), and several FCRs side by side (R122). -/

namespace Sys2Proof.Machine

/-- What each reassembler state says of the counters: R31 word for word, but for one value of `TL`. In Complete with `TL = 0`, R31's
bound `ACC_LEN - 7 < TL` is false in the spec's own vector TV-R1; there R92 gives one append, `ACC_LEN = 7`. The spec has
no ruling between the two, and the model follows R92 (DESIGN CHOICE, log 18). -/
abbrev PhaseInv (s : State) : Prop :=
  (s.rs = .idle → s.tl = 0 ∧ s.epc = 0 ∧ s.rpc = 0 ∧ s.accLen = 0) ∧
  (s.rs = .collecting → s.rpc = 0 ∨ s.accLen.toNat < s.tl.toNat) ∧
  (s.rs = .complete →
    1 ≤ s.rpc.toNat ∧ s.tl.toNat ≤ s.accLen.toNat ∧ (s.tl ≠ 0 → s.accLen.toNat < s.tl.toNat + 7) ∧ (s.tl = 0 → s.rpc = 1))

/-- The invariant of every reachable FCR: a configuration that R10 allows, `ACC` in canonical form with exactly the bytes below
`ACC_LEN` (R26), the bounds of R29, and R31. -/
abbrev Invariant (s : State) : Prop :=
  s.cfg.wf = true ∧ accWf s.acc = true ∧ s.acc.map Prod.fst = List.range s.accLen.toNat ∧
  s.accLen.toNat = 7 * s.rpc.toNat ∧ s.rpc.toNat ≤ 37 ∧ PhaseInv s

/-- R31 word for word, its Complete clause included. -/
abbrev Rule31 (s : State) : Prop :=
  (s.rs = .idle → s.tl = 0 ∧ s.epc = 0 ∧ s.rpc = 0 ∧ s.accLen = 0) ∧
  (s.rs = .collecting → s.accLen.toNat = 7 * s.rpc.toNat ∧ (s.rpc = 0 ∨ s.accLen.toNat < s.tl.toNat)) ∧
  (s.rs = .complete →
    1 ≤ s.rpc.toNat ∧ s.accLen.toNat = 7 * s.rpc.toNat ∧ s.tl.toNat ≤ s.accLen.toNat ∧ s.accLen.toNat < s.tl.toNat + 7)

/-- The next state of an outcome, if it has one. -/
def nextState (o : Host.Outcome State Fault Refusal) : Option State :=
  match o with
  | .next s => some s
  | .fault _ => none
  | .refused _ => none

/-- The effects of several instructions, one after the other. -/
def execAll : List Instr → State → Host.Outcome State Fault Refusal
  | [], s => .next s
  | i :: is, s => andThen (exec i s) (execAll is)

/-- `n` steps, stopping at the first fault or refusal. -/
def runSteps : Nat → State → Host.Outcome State Fault Refusal
  | 0, s => .next s
  | n + 1, s => andThen (step s) (runSteps n)

/-- A host presents the commands `cs` to an FCR whose port is empty, and the FCR executes them all, in order (R47). -/
def drive (cs : List Command) (s : State) : Host.Outcome State Fault Refusal :=
  runSteps cs.length { s with port := cs }

/-- Feeding one raw frame. -/
def rxCommand (raw : Bytes) : Command := ⟨0x04, raw⟩

/-- The commands of a retrieval in the order of R129: RESET, BUILD_REQ, an RX for each frame received, READ_VIN. -/
def retrieval (sa : Byte) (frames : List Bytes) : List Command :=
  [⟨0x07, []⟩, ⟨0x03, [sa]⟩] ++ frames.map rxCommand ++ [⟨0x05, []⟩]

/-- What the reassembler can act on in a raw byte string: the frame and its class; none for a malformed string and for an
unmatched frame (R77, R95). -/
def matched (c : Config) (raw : Bytes) : Option (FrameClass × Frame) :=
  match decodeRecord raw with
  | none => none
  | some F =>
    match classify c F with
    | .ctrl => some (.ctrl, F)
    | .data => some (.data, F)
    | .unm => none

/-- How many DataPackets a retrieval of announced length `tl` takes: `max(1, ceil(TL/7))` (R96). -/
def packetsNeeded (tl : Nat) : Nat := max 1 ((tl + 6) / 7)

/-- A command the host sent and the response it got. `deadline` is the host's own knowledge: this command is the RESET it issues
because its deadline expired (60_exceptions.md R121, 70_reset_and_hazards.md R133). -/
structure Exchange where
  command : Command
  response : Response
  deadline : Bool
  deriving DecidableEq, Repr

/-- How a retrieval ends (R126). -/
inductive RetrievalEnd where
  /-- A READ_VIN that returned OK, with the VIN `V` of 41_reassembler.md R99 as its result. -/
  | successful (vin : Bytes)
  /-- The host's deadline RESET, with no VIN. -/
  | timedOut
  deriving DecidableEq, Repr

/-- The end of a retrieval: "the first of two events after its RESET", in what passed between host and FCR since; none where neither
has happened (R126). The VIN is READ_VIN's result after its count byte (R99). A RESET that is not the deadline RESET, for a
teardown (D26) or for another retrieval, is neither event: the model's choice is that the retrieval then has no end, whatever
follows (DESIGN CHOICE, log 24). -/
def retrievalEnd : List Exchange → Option RetrievalEnd
  | [] => none
  | e :: rest =>
    if e.response.status = .ok ∧ e.command.op = 0x05 then some (.successful (e.response.result.drop 1))
    else if e.response.status = .ok ∧ e.command.op = 0x07 then (if e.deadline then some .timedOut else none)
    else retrievalEnd rest

/-- Several FCRs, each with its own state and configuration; they share nothing (R6, R34, R122). -/
abbrev Fcrs := List State

/-- One step of the FCR numbered `k`. -/
def stepAt (k : Nat) (sys : Fcrs) : Host.Outcome Fcrs Fault Refusal :=
  match sys[k]? with
  | none => .next sys
  | some s =>
    match step s with
    | .next t => .next (sys.set k t)
    | .fault r => .fault r
    | .refused r => .refused r

end Sys2Proof.Machine
end

