-- ==== Sys2Proof/Certificates/Slice0/Obligations.lean ====
section
/-! DEFINITION. The statements about the FCR. A statement about an instruction's result is an equation with a next state, so it says
where the instruction completes and, by `State.respond` changing the response queue alone, what it leaves unchanged. -/

namespace Sys2Proof.Claims

open Sys2Proof.Machine

/-- Every element of 10_state.md R20 is the same in both, `ACC` included. -/
def SameBlock (s t : State) : Prop :=
  t.rs = s.rs ∧ t.tl = s.tl ∧ t.epc = s.epc ∧ t.rpc = s.rpc ∧ t.accLen = s.accLen ∧ t.acc = s.acc

/-- The configuration and the commands waiting are the same, and one response has been given. -/
def Answered (st : Status) (r : Bytes) (s t : State) : Prop :=
  t.cfg = s.cfg ∧ t.port = s.port ∧ t.out = s.out ++ [⟨st, r⟩]

/-- The FCR answers the command `(op, opd)` with IllegalCommand and writes nothing, whatever its state. -/
def AnswersIllegal (op : Byte) (opd : Bytes) : Prop :=
  ∀ (s : State) (rest : List Command), s.cfg.wf = true → s.port = ⟨op, opd⟩ :: rest →
    step s = .next ({ s with port := rest }.respond .illegalCommand [])

/-- `start(F)` has happened, with the outcome `code` (41_reassembler.md R87, `ACC`'s bytes aside). -/
def StartsRetrieval (F : Frame) (code : Byte) (s t : State) : Prop :=
  t.rs = .collecting ∧ t.tl = F.payload.b1 ∧ t.epc = F.payload.b2 ∧ t.rpc = 0 ∧ t.accLen = 0 ∧
    Answered .ok [code] s t

/-- `append(F)` has happened (R91, R92): the chunk at `ACC_LEN`, every other byte of `ACC` as before. -/
def AppendsChunk (F : Frame) (s t : State) : Prop :=
  t.accLen.toNat = s.accLen.toNat + 7 ∧ t.rpc = s.rpc + 1 ∧ t.tl = s.tl ∧ t.epc = s.epc ∧
    (∀ j, j < 7 → cellGet t.acc (s.accLen.toNat + j) = some (byteAt (payloadBytes F.payload) (1 + j))) ∧
    (∀ a, a < s.accLen.toNat ∨ s.accLen.toNat + 7 ≤ a → cellGet t.acc a = cellGet s.acc a) ∧
    (if s.tl.toNat ≤ s.accLen.toNat + 7 then t.rs = .complete ∧ Answered .ok [0x03] s t
      else t.rs = .collecting ∧ Answered .ok [0x02] s t)

/-- The sequence test of R94. -/
def SequenceAccepted (F : Frame) (s : State) : Prop :=
  s.cfg.strictSeq = false ∨ F.payload.b0.toNat = s.rpc.toNat + 1

/-- The table of R88 for a received frame `F` in state `s` with outcome `o`. -/
def ReceivesFrame (F : Frame) (s : State) (o : Host.Outcome State Fault Refusal) : Prop :=
  (classify s.cfg F = .ctrl → s.rs = .idle → ∃ t, o = .next t ∧ StartsRetrieval F 0x01 s t) ∧
  (classify s.cfg F = .ctrl → s.rs = .collecting → ∃ t, o = .next t ∧ StartsRetrieval F 0x04 s t) ∧
  (classify s.cfg F = .data → s.rs = .collecting → SequenceAccepted F s → s.accLen.toNat + 7 ≤ 259 →
    ∃ t, o = .next t ∧ AppendsChunk F s t) ∧
  (classify s.cfg F = .data → s.rs = .collecting → ¬ SequenceAccepted F s → o = .next (s.respond .ok [0x00])) ∧
  (classify s.cfg F = .data → s.rs = .idle → o = .next (s.respond .ok [0x00])) ∧
  (classify s.cfg F = .unm → o = .next (s.respond .ok [0x00])) ∧
  (s.rs = .complete → o = .next (s.respond .ok [0x00]))

end Sys2Proof.Claims

open Sys2Proof Sys2Proof.Machine Sys2Proof.Claims

/-! ### Reset and configuration -/

/-- 70_reset_and_hazards.md R127: a new FCR, and the machine's reset state, hold the reset values. `ACC` is unspecified there; that no
byte of it has a value is 10_state.md R26 (`ACC_LEN` is zero) as the model represents it, a DESIGN CHOICE (log 8). -/
def Obligations.NewFcrHoldsResetState : Prop :=
  (∀ (a : ConfigArgs) (s : State), State.create a = some s →
    s.rs = .idle ∧ s.tl = 0 ∧ s.epc = 0 ∧ s.rpc = 0 ∧ s.accLen = 0 ∧ ∀ x, cellGet s.acc x = none) ∧
  State.reset.rs = .idle ∧ State.reset.tl = 0 ∧ State.reset.epc = 0 ∧ State.reset.rpc = 0 ∧ State.reset.accLen = 0 ∧
    ∀ x, cellGet State.reset.acc x = none

/-- 00_scope.md R10: an FCR is built from exactly the well-formed configurations, and with the parameters asked for. -/
def Obligations.OnlyWellFormedConfigsAreBuilt : Prop :=
  (∀ a : ConfigArgs, State.create a = none ↔
    (a.tpcmPgn &&& a.pgnMask = a.tpdtPgn &&& a.pgnMask ∨ 7 < a.reqPrio ∨ 1 < a.strictSeq)) ∧
  ∀ (a : ConfigArgs) (s : State), State.create a = some s →
    s.cfg.wf = true ∧ s.cfg.tpcmPgn = a.tpcmPgn ∧ s.cfg.tpdtPgn = a.tpdtPgn ∧ s.cfg.pgnMask = a.pgnMask ∧
      s.cfg.bamCode = a.bamCode ∧ s.cfg.respSa = a.respSa ∧ s.cfg.reqPrio.toNat = a.reqPrio ∧
      (s.cfg.strictSeq = true ↔ a.strictSeq = 1)

/-! ### Commands and their decoding -/

/-- A step runs the instruction its command decodes to, and answers IllegalCommand to a command with none. -/
def Obligations.StepRunsTheDecodedCommand : Prop :=
  ∀ (s : State) (c : Command) (rest : List Command), s.cfg.wf = true → s.port = c :: rest →
    (∀ i, decode c = .instr i → step s = exec i { s with port := rest }) ∧
    (∀ r, decode c = .reject r → step s = .next ({ s with port := rest }.respond .illegalCommand []))

/-- 60_exceptions.md R125 and 00_scope.md R10: with nothing presented a step changes nothing (log 7); an ill-formed configuration
runs nothing (log 4). -/
def Obligations.StepWithoutCommandHoldsState : Prop :=
  (∀ s : State, s.cfg.wf = true → s.port = [] → step s = .next s) ∧
  (∀ s : State, s.cfg.wf = false → step s = .refused .illFormedConfig)

/-- Words written out from the encodings of 30_encoding.md R63 and R66 decode to their instructions. -/
def Obligations.WrittenCommandWordsDecode : Prop :=
  decode ⟨0x01, [0xF1, 0xF9, 0xEA, 0x18, 0x03, 0xEC, 0xFE, 0x00]⟩ =
      .instr (.encode 0x18EAF9F1 0x03 [0xEC, 0xFE, 0x00]) ∧
  decode ⟨0x02, [0xAA]⟩ = .instr (.decode [0xAA]) ∧
  decode ⟨0x03, [0xF1]⟩ = .instr (.buildReq 0xF1) ∧
  decode ⟨0x04, [0xAA, 0xBB]⟩ = .instr (.rx [0xAA, 0xBB]) ∧
  decode ⟨0x05, []⟩ = .instr .readVin ∧
  decode ⟨0x06, []⟩ = .instr .status ∧
  decode ⟨0x07, []⟩ = .instr .reset ∧
  decode ⟨0x00, []⟩ = .instr (.reserved00 []) ∧
  decode ⟨0x0D, []⟩ = .instr (.reserved08 5 []) ∧
  decode ⟨0x1A, []⟩ = .instr (.reserved10 10 []) ∧
  decode ⟨0x31, []⟩ = .instr (.reserved20 17 []) ∧
  decode ⟨0x7F, []⟩ = .instr (.reserved40 63 []) ∧
  decode ⟨0xFF, [0x01]⟩ = .instr (.reserved80 127 [0x01])

/-- 30_encoding.md R63 and R66: every opcode byte names an instruction, and exactly one row of the opcode table matches the byte: the
row of the instruction that the decoder reads. -/
def Obligations.EachOpcodeDecodesToItsTableRow : Prop :=
  (∀ op : Byte, ∃ opd i, decode ⟨op, opd⟩ = .instr i) ∧
  ∀ (op : Byte) (opd : Bytes) (i : Instr), decode ⟨op, opd⟩ = .instr i →
    ∃ r, opcodeRow i = some r ∧ opcodeRows.filter (fun q => op &&& q.1 == q.2) = [r]

/-- 30_encoding.md R66: reserved opcodes are illegal, whatever their operand. -/
def Obligations.ReservedOpcodesAnswerIllegalCommand : Prop :=
  ∀ (op : Byte) (opd : Bytes), op = 0x00 ∨ 0x08 ≤ op.toNat → AnswersIllegal op opd

/-- The six rows of reserved opcodes as instructions: each completes with IllegalCommand and writes nothing (R66). -/
def Obligations.ReservedInstructionsAnswerIllegalCommand : Prop :=
  ∀ (s : State) (opd : Bytes) (l3 : BitVec 3) (l4 : BitVec 4) (l5 : BitVec 5) (l6 : BitVec 6) (l7 : BitVec 7),
    exec (.reserved00 opd) s = .next (s.respond .illegalCommand []) ∧
    exec (.reserved08 l3 opd) s = .next (s.respond .illegalCommand []) ∧
    exec (.reserved10 l4 opd) s = .next (s.respond .illegalCommand []) ∧
    exec (.reserved20 l5 opd) s = .next (s.respond .illegalCommand []) ∧
    exec (.reserved40 l6 opd) s = .next (s.respond .illegalCommand []) ∧
    exec (.reserved80 l7 opd) s = .next (s.respond .illegalCommand [])

/-- 30_encoding.md R67: a wrong operand length is illegal, and DECODE and RX take any length. -/
def Obligations.WrongOperandLengthAnswersIllegalCommand : Prop :=
  ∀ opd : Bytes,
    (opd.length < 5 → AnswersIllegal 0x01 opd) ∧
    (opd.length ≠ 1 → AnswersIllegal 0x03 opd) ∧
    (opd.length ≠ 0 → AnswersIllegal 0x05 opd ∧ AnswersIllegal 0x06 opd ∧ AnswersIllegal 0x07 opd) ∧
    decode ⟨0x02, opd⟩ = .instr (.decode opd) ∧ decode ⟨0x04, opd⟩ = .instr (.rx opd)

/-- Decoding the commands of a well-formed instruction gives the commands of the block it stands for: itself, or a
pseudo-command's or a frame's expansion. -/
def Obligations.DecodeOfEncodeIsTheInstruction : Prop :=
  ∀ (c : Config) (i : Instr), i.wf c = true →
    (encode i).map decode = (expand i).map .instr ∧ (i.isCommand = true → expand i = [i])

/-- Each command has one meaning, and encoding that meaning gives the command back: no bit of a command is dropped. -/
def Obligations.EncodeOfDecodeIsTheCommand : Prop :=
  ∀ (c : Command) (i : Instr), decode c = .instr i → encode i = [c] ∧ i.isCommand = true

/-- 30_encoding.md R57: a raw record is exactly one of the three frame instructions, well formed under its class, and the record of
a frame decodes to the frame's instruction. -/
def Obligations.FrameInstructionsRoundTrip : Prop :=
  (∀ (c : Config) (raw : Bytes), raw.length = 16 → ∃ F, decodeRecord raw = some F ∧
    decodeFrame c raw = some (frameInstr c F) ∧ (frameInstr c F).wf c = true) ∧
  (∀ (c : Config) (i : Instr) (F : Frame), (i = .frameCtrl F ∨ i = .frameData F ∨ i = .frameUnm F) → i.wf c = true →
    decodeFrame c (frameRecord F) = some i)

/-! ### The codec -/

/-- 40_codec.md R74: ENCODE, byte by byte, with its errors. -/
def Obligations.EncodeBuildsTheRecord : Prop :=
  (∀ (s : State) (id : BitVec 32) (len : Byte) (pl : Bytes),
    (pl.length ≤ 8 ∧ len.toNat ≤ 8 ∧ id.toNat < 2 ^ 29 → ∃ r,
      exec (.encode id len pl) s = .next (s.respond .ok r) ∧ r.length = 16 ∧
      le32 (byteAt r 0) (byteAt r 1) (byteAt r 2) (byteAt r 3) = 0x80000000 ||| id ∧ byteAt r 4 = len ∧
      byteAt r 5 = 0 ∧ byteAt r 6 = 0 ∧ byteAt r 7 = 0 ∧
      ∀ k, k < 8 → byteAt r (8 + k) = if k < pl.length ∧ k < len.toNat then byteAt pl k else 0) ∧
    (8 < pl.length ∨ 8 < len.toNat ∨ 2 ^ 29 ≤ id.toNat →
      exec (.encode id len pl) s = .next (s.respond .invalidPayload []))) ∧
  ∀ opd : Bytes, opd.length < 5 → AnswersIllegal 0x01 opd

/-- 40_codec.md R76: DECODE, field by field, with its error. -/
def Obligations.DecodeReadsTheRecord : Prop :=
  ∀ (s : State) (raw : Bytes),
    (raw.length = 16 → ∃ r, exec (.decode raw) s = .next (s.respond .ok r) ∧ r.length = 14 ∧
      (∀ i, i < 29 → (le32 (byteAt r 0) (byteAt r 1) (byteAt r 2) (byteAt r 3)).getLsbD i =
        (le32 (byteAt raw 0) (byteAt raw 1) (byteAt raw 2) (byteAt raw 3)).getLsbD i) ∧
      (∀ i, 29 ≤ i → (le32 (byteAt r 0) (byteAt r 1) (byteAt r 2) (byteAt r 3)).getLsbD i = false) ∧
      byteAt r 4 = (if (byteAt raw 3).getLsbD 7 then 1 else 0) ∧ byteAt r 5 = byteAt raw 4 ∧
      ∀ k, k < 8 → byteAt r (6 + k) = byteAt raw (8 + k)) ∧
    (raw.length ≠ 16 → exec (.decode raw) s = .next (s.respond .malformedFrame []))

/-- 40_codec.md R75, law 1: DECODE of the record ENCODE returns for a valid triple gives the triple back. -/
def Obligations.DecodingAnEncodedFrameGivesItBack : Prop :=
  ∀ (s : State) (id : BitVec 32) (len : Byte) (pl : Bytes),
    id.toNat < 2 ^ 29 → len.toNat ≤ 8 → pl.length ≤ 8 →
    (∀ k, len.toNat ≤ k → k < pl.length → byteAt pl k = 0) →
    ∃ r, exec (.encode id len pl) s = .next (s.respond .ok r) ∧
      decodeRecord r = some { id := id.setWidth 29, ext := true, len := len, payload := payloadOf (byteAt pl) } ∧
      exec (.decode r) s = .next (s.respond .ok
        (bytesLe32 id ++ [1, len] ++ payloadBytes (payloadOf (byteAt pl))))

/-- R75, law 2: ENCODE of the fields DECODE returns reproduces the record exactly for the records the law lists. -/
def Obligations.EncodingADecodedRecordGivesItBack : Prop :=
  ∀ (s : State) (r : Bytes) (F : Frame), decodeRecord r = some F →
    (exec (.encode (F.id.setWidth 32) F.len (payloadBytes F.payload)) s = .next (s.respond .ok r) ↔
      ((byteAt r 3).getLsbD 7 = true ∧ (byteAt r 3).getLsbD 6 = false ∧ (byteAt r 3).getLsbD 5 = false ∧
        (byteAt r 4).toNat ≤ 8 ∧ byteAt r 5 = 0 ∧ byteAt r 6 = 0 ∧ byteAt r 7 = 0 ∧
        ∀ k, k < 8 → (byteAt r 4).toNat ≤ k → byteAt r (8 + k) = 0))

/-- 40_codec.md R78 and R79: the request record, byte by byte, "exactly the record ENCODE gives for `(id, 3, [EC FE 00])`"; and the
one operand length. -/
def Obligations.BuildReqGivesTheVinRequest : Prop :=
  (∀ (s : State) (sa : Byte),
    exec (.buildReq sa) s = .next (s.respond .ok
      [sa, 0xF9, 0xEA, 0x80 ||| (s.cfg.reqPrio.setWidth 8 <<< 2), 0x03, 0x00, 0x00, 0x00,
        0xEC, 0xFE, 0x00, 0x00, 0x00, 0x00, 0x00, 0x00]) ∧
    exec (.buildReq sa) s =
      exec (.encode ((s.cfg.reqPrio.setWidth 32 <<< 26) ||| 0x00EAF900 ||| sa.setWidth 32) 3 [0xEC, 0xFE, 0x00]) s) ∧
  ∀ opd : Bytes, opd.length ≠ 1 → AnswersIllegal 0x03 opd

/-- 40_codec.md R72: the codec commands read no state element and write none; BUILD_REQ reads only `P_REQ_PRIO`. -/
def Obligations.CodecCommandsArePure : Prop :=
  ∀ s u : State,
    (∀ id len pl, ∃ st r, exec (.encode id len pl) s = .next (s.respond st r) ∧
      exec (.encode id len pl) u = .next (u.respond st r)) ∧
    (∀ raw, ∃ st r, exec (.decode raw) s = .next (s.respond st r) ∧ exec (.decode raw) u = .next (u.respond st r)) ∧
    (s.cfg.reqPrio = u.cfg.reqPrio → ∀ sa, ∃ r, exec (.buildReq sa) s = .next (s.respond .ok r) ∧
      exec (.buildReq sa) u = .next (u.respond .ok r))

/-- 40_codec.md R83: a record that ENCODE or BUILD_REQ returns has 16 bytes and the flag, and RX and DECODE never find it malformed. -/
def Obligations.ReturnedRecordsAreNeverMalformed : Prop :=
  ∀ (i : Instr) (s : State) (r : Bytes), ((∃ id len pl, i = .encode id len pl) ∨ ∃ sa, i = .buildReq sa) →
    exec i s = .next (s.respond .ok r) →
    r.length = 16 ∧ (byteAt r 3).getLsbD 7 = true ∧
      ∀ u : State, exec (.rx r) u ≠ .next (u.respond .malformedFrame []) ∧
        exec (.decode r) u ≠ .next (u.respond .malformedFrame [])

/-! ### Classification -/

/-- 30_encoding.md R57: the three classes by their conditions, and, with the default parameters, as the opcode table's match and mask
on the identifier word. -/
def Obligations.FrameClassesFollowTheMap : Prop :=
  (∀ (c : Config) (F : Frame), c.wf = true →
    (classify c F = .ctrl ↔
      F.id.extractLsb' 8 16 &&& c.pgnMask = c.tpcmPgn &&& c.pgnMask ∧ F.id.extractLsb' 0 8 = c.respSa ∧
        F.payload.b0 = c.bamCode ∧ F.payload.b5 = 0xEC ∧ F.payload.b6 = 0xFE ∧ F.payload.b7 = 0x00) ∧
    (classify c F = .data ↔
      F.id.extractLsb' 8 16 &&& c.pgnMask = c.tpdtPgn &&& c.pgnMask ∧ F.id.extractLsb' 0 8 = c.respSa)) ∧
  (∀ (sa : Byte) (w : BitVec 32) (len : Byte) (p : Payload) (F : Frame), decodeRecord (wireRecord w len p) = some F →
    (classify (Config.withDefaults sa) F = .ctrl ↔
      w &&& 0x00FF00FF = 0x00EC0000 ||| sa.setWidth 32 ∧ p.b0 = 0x20 ∧ p.b5 = 0xEC ∧ p.b6 = 0xFE ∧ p.b7 = 0x00) ∧
    (classify (Config.withDefaults sa) F = .data ↔ w &&& 0x00FF00FF = 0x00EB0000 ||| sa.setWidth 32))

/-- 30_encoding.md R59: the fields the reassembler does not examine change neither a frame's class nor, for equal payloads, anything
an RX does. -/
def Obligations.UnexaminedFieldsHaveNoEffect : Prop :=
  ∀ (s : State) (F G : Frame), F.id.extractLsb' 0 8 = G.id.extractLsb' 0 8 →
    F.id.extractLsb' 8 16 &&& s.cfg.pgnMask = G.id.extractLsb' 8 16 &&& s.cfg.pgnMask →
    (F.payload.b0 = G.payload.b0 → F.payload.b5 = G.payload.b5 → F.payload.b6 = G.payload.b6 →
      F.payload.b7 = G.payload.b7 → classify s.cfg F = classify s.cfg G) ∧
    (F.payload = G.payload → exec (.rx (frameRecord F)) s = exec (.rx (frameRecord G)) s)

/-- 40_codec.md R81: a request that loops back into RX is unmatched and ignored, in every state. -/
def Obligations.LoopedBackRequestIsIgnored : Prop :=
  ∀ (s u : State) (sa : Byte) (r : Bytes), s.cfg = { Config.withDefaults s.cfg.respSa with
      reqPrio := s.cfg.reqPrio, strictSeq := s.cfg.strictSeq } →
    exec (.buildReq sa) u = .next (u.respond .ok r) →
      (∃ F, decodeRecord r = some F ∧ classify s.cfg F = .unm) ∧ exec (.rx r) s = .next (s.respond .ok [0x00])

/-! ### The reassembler -/

/-- 41_reassembler.md R88: RX runs the state machine on the decoded frame; a malformed string writes nothing. -/
def Obligations.RxRunsTheStateMachine : Prop :=
  (∀ (s : State) (raw : Bytes) (F : Frame), decodeRecord raw = some F → ReceivesFrame F s (exec (.rx raw) s)) ∧
  ∀ (s : State) (raw : Bytes), raw.length ≠ 16 → exec (.rx raw) s = .next (s.respond .malformedFrame [])

/-- R89: Idle starts on a CTRL frame and ignores DATA. -/
def Obligations.IdleStartsOnControlPacket : Prop :=
  ∀ (s : State) (raw : Bytes) (F : Frame), decodeRecord raw = some F → s.rs = .idle →
    (classify s.cfg F = .ctrl → ∃ t, exec (.rx raw) s = .next t ∧ t.rs = .collecting ∧ t.tl = byteAt raw 9 ∧
      t.epc = byteAt raw 10 ∧ t.rpc = 0 ∧ t.accLen = 0 ∧ Answered .ok [0x01] s t) ∧
    (classify s.cfg F = .data → exec (.rx raw) s = .next (s.respond .ok [0x00]))

/-- R90: a ControlPacket in Collecting restarts the retrieval. -/
def Obligations.CollectingRestartsOnControlPacket : Prop :=
  ∀ (s : State) (raw : Bytes) (F : Frame), decodeRecord raw = some F → s.rs = .collecting → classify s.cfg F = .ctrl →
    ∃ t, exec (.rx raw) s = .next t ∧ t.rs = .collecting ∧ t.tl = byteAt raw 9 ∧ t.epc = byteAt raw 10 ∧ t.rpc = 0 ∧
      t.accLen = 0 ∧ Answered .ok [0x04] s t

/-- R91 and R92: an accepted DATA frame is appended, and completes the retrieval exactly when the announced length is reached. -/
def Obligations.CollectingAppendsDataPacket : Prop :=
  ∀ (s : State) (raw : Bytes) (F : Frame), decodeRecord raw = some F → s.rs = .collecting → classify s.cfg F = .data →
    (s.cfg.strictSeq = true → (byteAt raw 8).toNat = s.rpc.toNat + 1) → s.accLen.toNat + 7 ≤ 259 →
    ∃ t, exec (.rx raw) s = .next t ∧ t.tl = s.tl ∧ t.epc = s.epc ∧ t.rpc = s.rpc + 1 ∧
      t.accLen.toNat = s.accLen.toNat + 7 ∧
      (∀ j, j < 7 → cellGet t.acc (s.accLen.toNat + j) = some (byteAt raw (9 + j))) ∧
      (∀ a, a < s.accLen.toNat ∨ s.accLen.toNat + 7 ≤ a → cellGet t.acc a = cellGet s.acc a) ∧
      (s.tl.toNat ≤ s.accLen.toNat + 7 → t.rs = .complete ∧ Answered .ok [0x03] s t) ∧
      (s.accLen.toNat + 7 < s.tl.toNat → t.rs = .collecting ∧ Answered .ok [0x02] s t)

/-- The model's own stop (log 10): past the end of `ACC` there is no address to append to (20_memory.md R36). -/
def Obligations.AppendPastTheAccumulatorStops : Prop :=
  ∀ (s : State) (F : Frame), s.rs = .collecting → SequenceAccepted F s → 259 < s.accLen.toNat + 7 →
    exec (.frameData F) s = .fault .accOutOfRange ∧
    (classify s.cfg F = .data → exec (.rx (frameRecord F)) s = .fault .accOutOfRange)

/-- R94: strict mode ignores a DATA frame that is not the next one; reference mode never looks at the number. -/
def Obligations.SequenceNumberMattersOnlyInStrictMode : Prop :=
  (∀ (s : State) (raw : Bytes) (F : Frame), decodeRecord raw = some F → classify s.cfg F = .data →
    s.cfg.strictSeq = true → (byteAt raw 8).toNat ≠ s.rpc.toNat + 1 →
    exec (.rx raw) s = .next (s.respond .ok [0x00])) ∧
  (∀ (s : State) (F : Frame) (x : Byte), s.cfg.wf = true → classify s.cfg F = .data → s.cfg.strictSeq = false →
    exec (.rx (frameRecord { F with payload := { F.payload with b0 := x } })) s = exec (.rx (frameRecord F)) s)

/-- R97: in reference mode the same DataPacket, received twice, is appended twice, where the first append does not complete. -/
def Obligations.DuplicatePacketIsAppendedTwice : Prop :=
  ∀ (s t : State) (F : Frame), s.rs = .collecting → classify s.cfg F = .data → s.cfg.strictSeq = false →
    s.accLen.toNat + 14 ≤ 259 → exec (.rx (frameRecord F)) s = .next t → t.rs = .collecting →
    ∃ u, exec (.rx (frameRecord F)) t = .next u ∧ u.accLen.toNat = s.accLen.toNat + 14 ∧
      ∀ j, j < 7 → cellGet u.acc (s.accLen.toNat + j) = some (byteAt (payloadBytes F.payload) (1 + j)) ∧
        cellGet u.acc (s.accLen.toNat + 7 + j) = some (byteAt (payloadBytes F.payload) (1 + j))

/-- R93: Complete is absorbing. Every RX in it writes nothing, and only RESET (BEGIN holds one) leaves it. -/
def Obligations.CompleteIsAbsorbing : Prop :=
  (∀ (s : State) (raw : Bytes), s.rs = .complete → raw.length = 16 →
    exec (.rx raw) s = .next (s.respond .ok [0x00])) ∧
  (∀ (s t : State) (i : Instr), s.rs = .complete → exec i s = .next t → t.rs ≠ .complete →
    i = .reset ∨ ∃ sa, i = .begin sa)

/-- 10_state.md R31: "Idle is entered only by reset" (R33), "and no transition returns to Idle" (BEGIN holds a RESET). -/
def Obligations.IdleIsEnteredOnlyByReset : Prop :=
  ∀ (s t : State) (i : Instr), exec i s = .next t → s.rs ≠ .idle → t.rs = .idle → i = .reset ∨ ∃ sa, i = .begin sa

/-- R95: an unmatched frame is ignored in every state. -/
def Obligations.UnmatchedFrameIsIgnored : Prop :=
  ∀ (s : State) (raw : Bytes) (F : Frame), decodeRecord raw = some F →
    (classify s.cfg F = .unm ∨ (s.rs = .idle ∧ classify s.cfg F = .data) ∨ s.rs = .complete ∨
      (s.rs = .collecting ∧ classify s.cfg F = .data ∧ s.cfg.strictSeq = true ∧ (byteAt raw 8).toNat ≠ s.rpc.toNat + 1)) →
    exec (.rx raw) s = .next (s.respond .ok [0x00])

/-- 40_codec.md R77: a malformed string changes nothing, in DECODE and in RX. -/
def Obligations.MalformedFrameWritesNothing : Prop :=
  ∀ (s : State) (raw : Bytes), raw.length ≠ 16 →
    exec (.rx raw) s = .next (s.respond .malformedFrame []) ∧ exec (.decode raw) s = .next (s.respond .malformedFrame [])

/-- 30_encoding.md R65: the outcome byte of an RX says what happened to the state. What makes a frame ignored is
`UnmatchedFrameIsIgnored` and `RxRunsTheStateMachine`. -/
def Obligations.OutcomeByteSaysWhatHappened : Prop :=
  ∀ (s t : State) (raw r : Bytes), exec (.rx raw) s = .next t → t.out = s.out ++ [⟨.ok, r⟩] →
    (r = [0x00] ∧ SameBlock s t) ∨ (r = [0x01] ∧ s.rs = .idle ∧ t.rs = .collecting) ∨
    (r = [0x02] ∧ s.rs = .collecting ∧ t.rs = .collecting ∧ t.rpc = s.rpc + 1 ∧ t.accLen.toNat = s.accLen.toNat + 7) ∨
    (r = [0x03] ∧ s.rs = .collecting ∧ t.rs = .complete ∧ t.rpc = s.rpc + 1 ∧ t.accLen.toNat = s.accLen.toNat + 7) ∨
    (r = [0x04] ∧ s.rs = .collecting ∧ t.rs = .collecting ∧ t.rpc = 0 ∧ t.accLen = 0)

/-- `start` and RESET leave no byte of `ACC` with a value: the model's reading of 10_state.md R26 (log 9). -/
def Obligations.StartAndResetEmptyTheAccumulator : Prop :=
  ∀ (s t : State) (i : Instr), exec i s = .next t →
    ((∃ F, i = .frameCtrl F ∧ s.rs ≠ .complete) ∨
      (∃ raw F, i = .rx raw ∧ decodeRecord raw = some F ∧ classify s.cfg F = .ctrl ∧ s.rs ≠ .complete) ∨
      i = .reset ∨ ∃ sa, i = .begin sa) →
    ∀ a, cellGet t.acc a = none

/-! ### Reading out and resetting -/

/-- R98 and R99: READ_VIN. `B` is the first `min(TL, 17)` bytes of `ACC`. -/
def Obligations.ReadVinReturnsTheVin : Prop :=
  (∀ s : State, s.rs = .complete → (∀ j, j < min s.tl.toNat 17 → cellGet s.acc j ≠ none) →
    ∃ B : Bytes, B.length = min s.tl.toNat 17 ∧ (∀ j, j < B.length → cellGet s.acc j = some (byteAt B j)) ∧
      exec .readVin s = .next (s.respond .ok
        (BitVec.ofNat 8 (B.filter (·.toNat < 0x80)).length :: B.filter (·.toNat < 0x80)))) ∧
  (∀ s : State, s.rs ≠ .complete → exec .readVin s = .next (s.respond .notComplete [])) ∧
  ∀ opd : Bytes, opd ≠ [] → AnswersIllegal 0x05 opd

/-- The model's own stop (log 8): READ_VIN does not read a byte that has no value. -/
def Obligations.ReadVinStopsOnValuelessByte : Prop :=
  ∀ s : State, s.rs = .complete → (∃ j, j < min s.tl.toNat 17 ∧ cellGet s.acc j = none) →
    exec .readVin s = .fault .accNoValue

/-- R99: READ_VIN "may be repeated and returns the same bytes". -/
def Obligations.ReadVinMayBeRepeated : Prop :=
  ∀ s t : State, exec .readVin s = .next t → ∃ st r, t = s.respond st r ∧ exec .readVin t = .next (t.respond st r)

/-- R100: STATUS reads out the five registers. -/
def Obligations.StatusReadsOutTheState : Prop :=
  (∀ s : State, ∃ rs lo hi : Byte, exec .status s = .next (s.respond .ok [rs, s.tl, s.epc, s.rpc, lo, hi]) ∧
    (s.rs = .idle → rs = 0) ∧ (s.rs = .collecting → rs = 1) ∧ (s.rs = .complete → rs = 2) ∧
    lo.toNat + 256 * hi.toNat = s.accLen.toNat) ∧
  ∀ opd : Bytes, opd ≠ [] → AnswersIllegal 0x06 opd

/-- R101: RESET, in every state. -/
def Obligations.ResetRestoresTheResetState : Prop :=
  (∀ s : State, ∃ t, exec .reset s = .next t ∧ t.rs = .idle ∧ t.tl = 0 ∧ t.epc = 0 ∧ t.rpc = 0 ∧ t.accLen = 0 ∧
    Answered .ok [] s t) ∧
  ∀ opd : Bytes, opd ≠ [] → AnswersIllegal 0x07 opd

/-- 70_reset_and_hazards.md R128: RESET leaves the block as building an FCR with its configuration does. `ACC` is unspecified after
both (R33); that it too is the same, with no byte that has a value, is the model's reading of 10_state.md R26 (logs 8 and 9). -/
def Obligations.ResetIsPowerOn : Prop :=
  ∀ s : State, ∃ t, exec .reset s = .next t ∧ SameBlock (State.resetWith s.cfg) t ∧ t.cfg = s.cfg

/-- R128 and 70_reset_and_hazards.md R129: after a RESET an FCR answers as if it had no past. That `ACC` is the same in both ends rests
on the model's reading that RESET leaves no byte of it with a value (log 9). -/
def Obligations.ResetErasesThePast : Prop :=
  ∀ (s u t v : State) (cs : List Command), s.cfg = u.cfg → s.cfg.wf = true →
    drive (⟨0x07, []⟩ :: cs) s = .next t → drive (⟨0x07, []⟩ :: cs) u = .next v →
    SameBlock t v ∧ ∃ rs, t.out = s.out ++ rs ∧ v.out = u.out ++ rs

/-! ### Frames and pseudo-commands -/

/-- The frame rows of the opcode table run the state machine's move for their class. -/
def Obligations.FrameInstructionsRunTheStateMachine : Prop :=
  ∀ (s : State) (F : Frame),
    (classify s.cfg F = .ctrl → ReceivesFrame F s (exec (.frameCtrl F) s)) ∧
    (classify s.cfg F = .data → ReceivesFrame F s (exec (.frameData F) s)) ∧
    (classify s.cfg F = .unm → ReceivesFrame F s (exec (.frameUnm F) s))

/-- RX of a record is the frame instruction that the record is (R85, R88). -/
def Obligations.RxIsTheFrameInstruction : Prop :=
  ∀ (s : State) (raw : Bytes) (i : Instr), decodeFrame s.cfg raw = some i → exec (.rx raw) s = exec i s

/-- 30_encoding.md R70: RXF and RXW feed the reassembler the frame they spell; BEGIN resets and builds the request. -/
def Obligations.PseudoCommandsHaveTheirEffect : Prop :=
  (∀ (s : State) (id : BitVec 32) (len : Byte) (data : Bytes), data.length ≤ 8 → len.toNat ≤ 8 → id.toNat < 2 ^ 29 →
    ReceivesFrame ⟨id.setWidth 29, true, len, payloadOf fun k => if k < data.length ∧ k < len.toNat then byteAt data k else 0⟩
      s (exec (.rxf id len data) s)) ∧
  (∀ (s : State) (w : BitVec 32) (len : Byte) (data : Payload),
    ReceivesFrame ⟨w.extractLsb' 0 29, w.getLsbD 31, len, data⟩ s (exec (.rxw w len data) s)) ∧
  (∀ (s : State) (sa : Byte), ∃ t, exec (.begin sa) s = .next t ∧ t.rs = .idle ∧ t.tl = 0 ∧ t.epc = 0 ∧ t.rpc = 0 ∧
    t.accLen = 0 ∧ t.cfg = s.cfg ∧ t.port = s.port ∧
    ∃ r, exec (.buildReq sa) s = .next (s.respond .ok r) ∧ t.out = s.out ++ [⟨.ok, []⟩, ⟨.ok, r⟩])

/-- A well-formed instruction has the effect of the commands it expands to, one after the other. For a pseudo-command that is R70 as
one instruction (log 16); that a frame instruction expands to the RX of its record is the model's choice (log 15), and that the
two agree is R85 and R88. -/
def Obligations.ExpansionHasTheSameEffect : Prop :=
  ∀ (s : State) (i : Instr), i.wf s.cfg = true → exec i s = execAll (expand i) s

/-- R70: RXF is an assembly error exactly where ENCODE would return InvalidPayload. -/
def Obligations.RxfStopsWhereEncodeRefuses : Prop :=
  ∀ (s : State) (id : BitVec 32) (len : Byte) (data : Bytes),
    exec (.rxf id len data) s = .refused .assemblyError ↔
      exec (.encode id len data) s = .next (s.respond .invalidPayload [])

/-! ### The whole machine -/

/-- 60_exceptions.md R117: errors are precise. A step that answers an error status has written nothing. -/
def Obligations.ErrorsArePrecise : Prop :=
  ∀ (s t : State) (c : Command) (rest : List Command) (st : Status) (r : Bytes), s.port = c :: rest →
    step s = .next t → t.out = s.out ++ [⟨st, r⟩] → st ≠ .ok → t = { s with port := rest }.respond st []

/-- 30_encoding.md R62: a command is answered with exactly one response, and the configuration stays. -/
def Obligations.EachCommandIsAnsweredOnce : Prop :=
  ∀ (s t : State) (c : Command) (rest : List Command), s.port = c :: rest → step s = .next t →
    t.port = rest ∧ t.cfg = s.cfg ∧ ∃ r : Response, t.out = s.out ++ [r] ∧ (r.status ≠ .ok → r.result = [])

/-- 60_exceptions.md R110 and R114: which command gets which error status, and when. -/
def Obligations.StatusesHaveTheirCauses : Prop :=
  ∀ (s t : State) (c : Command) (rest : List Command) (r : Response), s.port = c :: rest →
    step s = .next t → t.out = s.out ++ [r] →
    (r.status = .illegalCommand ↔
      c.op = 0x00 ∨ 0x08 ≤ c.op.toNat ∨ (c.op = 0x01 ∧ c.opd.length < 5) ∨ (c.op = 0x03 ∧ c.opd.length ≠ 1) ∨
        ((c.op = 0x05 ∨ c.op = 0x06 ∨ c.op = 0x07) ∧ c.opd.length ≠ 0)) ∧
    (r.status = .invalidPayload ↔
      c.op = 0x01 ∧ 5 ≤ c.opd.length ∧ (13 < c.opd.length ∨ 8 < (byteAt c.opd 4).toNat ∨
        2 ^ 29 ≤ (le32 (byteAt c.opd 0) (byteAt c.opd 1) (byteAt c.opd 2) (byteAt c.opd 3)).toNat)) ∧
    (r.status = .malformedFrame ↔ (c.op = 0x02 ∨ c.op = 0x04) ∧ c.opd.length ≠ 16) ∧
    (r.status = .notComplete ↔ c.op = 0x05 ∧ c.opd = [] ∧ s.rs ≠ .complete)

/-- 30_encoding.md R64: a response's bytes are the status code, and after it the result where the status is OK. -/
def Obligations.ResponseBytesFollowTheStatus : Prop :=
  (∀ r : Response, r.bytes = (match r.status with
    | .ok => 0x00 | .invalidPayload => 0x01 | .malformedFrame => 0x02 | .notComplete => 0x03 | .illegalCommand => 0x04)
      :: r.result) ∧
  ∀ (s t : State) (c : Command) (rest : List Command), s.port = c :: rest → step s = .next t →
    ∃ r : Response, t.out = s.out ++ [r] ∧
      (r.bytes = 0x00 :: r.result ∨ r.bytes = [0x01] ∨ r.bytes = [0x02] ∨ r.bytes = [0x03] ∨ r.bytes = [0x04])

/-- 20_memory.md R45: only received frames and resets write a state element. -/
def Obligations.OnlyFramesAndResetsWriteState : Prop :=
  ∀ (s t : State) (i : Instr), exec i s = .next t →
    t.cfg = s.cfg ∧ t.port = s.port ∧
    (SameBlock s t ∨ (∃ raw, i = .rx raw) ∨ (∃ F, i = .frameCtrl F) ∨ (∃ F, i = .frameData F) ∨
      (∃ id len data, i = .rxf id len data) ∨ (∃ w len data, i = .rxw w len data) ∨ i = .reset ∨ ∃ sa, i = .begin sa)

/-- The invariant of 10_state.md R26, R29 and R31 holds in every FCR just built and in the reset state. -/
def Obligations.InvariantHoldsAtReset : Prop :=
  Invariant State.reset ∧ ∀ (a : ConfigArgs) (s : State), State.create a = some s → Invariant s

/-- Every step keeps the invariant: `ACC` lists exactly the bytes below `ACC_LEN`, `ACC_LEN = 7 * RPC <= 259`, and R31. -/
def Obligations.StepKeepsTheInvariant : Prop :=
  ∀ s t : State, Invariant s → step s = .next t → Invariant t

/-- From a state with the invariant a step always answers a next state: no command the host can present stops the FCR. -/
def Obligations.NoCommandStopsAReachableFcr : Prop :=
  ∀ s : State, Invariant s → ∃ t, step s = .next t

/-- R31 word for word as an invariant. Its clause `ACC_LEN - 7 < TL` for Complete fails where the announced length is zero
(log 18), so this is expected to be refuted. -/
def Obligations.RuleThirtyOneAsWrittenIsKept : Prop :=
  ∀ s t : State, Invariant s → Rule31 s → step s = .next t → Rule31 t

/-- 41_reassembler.md R96: in reference mode a retrieval completes on exactly the `max(1, ceil(TL/7))`-th DataPacket. -/
def Obligations.RetrievalCompletesOnTheAnnouncedPacket : Prop :=
  ∀ (s : State) (raws : List Bytes), Invariant s → s.rs = .collecting → s.rpc = 0 → s.cfg.strictSeq = false →
    (∀ raw ∈ raws, ∃ D, matched s.cfg raw = some (.data, D)) →
    ∃ t, drive (raws.map rxCommand) s = .next t ∧ (t.rs = .complete ↔ packetsNeeded s.tl.toNat ≤ raws.length) ∧
      t.rpc.toNat = min raws.length (packetsNeeded s.tl.toNat)

/-- 41_reassembler.md R95: malformed and unmatched frames, interleaved in any state, leave the reassembler as if they had not come. -/
def Obligations.ForeignFramesLeaveNoTrace : Prop :=
  ∀ (s : State) (raws : List Bytes), Invariant s →
    ∃ t u, drive (raws.map rxCommand) s = .next t ∧
      drive ((raws.filter fun r => (matched s.cfg r).isSome).map rxCommand) s = .next u ∧ SameBlock t u

/-- The retrieval of 70_reset_and_hazards.md R129, from any state and through any noise, ends with the VIN that the announced
DataPackets spell: `min(TL, 17)` bytes of their chunks, ASCII bytes kept. -/
def Obligations.RetrievalReturnsTheAnnouncedVin : Prop :=
  ∀ (s : State) (sa : Byte) (raws : List Bytes) (C : Frame) (early datas : List Frame) (late : List (FrameClass × Frame)),
    s.cfg.wf = true →
    raws.filterMap (matched s.cfg) =
      early.map (Prod.mk .data) ++ (.ctrl, C) :: datas.map (Prod.mk .data) ++ late →
    datas.length = packetsNeeded (totalLength C).toNat →
    (s.cfg.strictSeq = true → ∀ j, j < datas.length →
      (datas.map sequenceNumber)[j]?.map BitVec.toNat = some (j + 1)) →
    ∃ t rs, drive (retrieval sa raws) s = .next t ∧ t.rs = .complete ∧ rs.length = raws.length + 2 ∧
      t.out = s.out ++ rs ++ [⟨.ok,
        let V := ((datas.flatMap chunk).take (min (totalLength C).toNat 17)).filter (·.toNat < 0x80)
        BitVec.ofNat 8 V.length :: V⟩]

/-- 10_state.md R34, 20_memory.md R47, over the model's list of FCRs (log 19): a step of one FCR sets exactly that one, to what `step`
gives there, and stops where `step` stops; FCRs with the invariant never stop and keep it; steps of different FCRs neither see nor
order each other. -/
def Obligations.FcrsAreIndependent : Prop :=
  (∀ (sys : Fcrs) (k : Nat) (s : State), sys[k]? = some s →
    (∀ t, step s = .next t → ∃ sys1, stepAt k sys = .next sys1 ∧ sys1[k]? = some t ∧ sys1.length = sys.length ∧
      ∀ j, j ≠ k → sys1[j]? = sys[j]?) ∧
    (∀ r, step s = .fault r → stepAt k sys = .fault r) ∧
    (∀ r, step s = .refused r → stepAt k sys = .refused r)) ∧
  (∀ (sys : Fcrs) (k : Nat), (∀ s ∈ sys, Invariant s) → ∃ sys1, stepAt k sys = .next sys1 ∧ ∀ s ∈ sys1, Invariant s) ∧
  ∀ (sys sys1 sys2 : Fcrs) (j k : Nat), j ≠ k → stepAt j sys = .next sys1 → stepAt k sys1 = .next sys2 →
    sys1[k]? = sys[k]? ∧ ∃ sys3, stepAt k sys = .next sys3 ∧ stepAt j sys3 = .next sys2
end

