-- ==== Sys2Proof/Laws/Bytes.lean ====
section
/-! SUPPORT. Splitting a word into bytes and assembling it again lose nothing (20_memory.md R38); the two directions of the wire
record (30_encoding.md R50). -/

namespace Sys2Proof.Machine

/-- Bit `i` of a little-endian word is a bit of byte `i / 8`. -/
theorem le32_getLsbD (a b c d : Byte) (i : Nat) :
    (le32 a b c d).getLsbD i =
      if i < 8 then a.getLsbD i else if i < 16 then b.getLsbD (i - 8)
      else if i < 24 then c.getLsbD (i - 16) else d.getLsbD (i - 24) := by
  simp only [le32, BitVec.getLsbD_append]
  split_ifs <;> first | rfl | omega

/-- Assembling the four bytes of a word gives the word. -/
theorem le32_of_bytes (v : BitVec 32) :
    le32 (v.extractLsb' 0 8) (v.extractLsb' 8 8) (v.extractLsb' 16 8) (v.extractLsb' 24 8) = v := by
  refine BitVec.eq_of_getLsbD_eq fun i hi => ?_
  simp only [le32_getLsbD, BitVec.getLsbD_extractLsb']
  split_ifs with h1 h2 h3
  · simp [h1]
  · rw [show 8 + (i - 8) = i by omega]; simp; omega
  · rw [show 16 + (i - 16) = i by omega]; simp; omega
  · rw [show 24 + (i - 24) = i by omega]; simp; omega

/-- The bytes of an assembled word are the bytes it was assembled from. -/
theorem bytesLe32_le32 (a b c d : Byte) : bytesLe32 (le32 a b c d) = [a, b, c, d] := by
  have h : ∀ (k : Nat) (x : Byte), (∀ i, i < 8 → (le32 a b c d).getLsbD (k + i) = x.getLsbD i) →
      (le32 a b c d).extractLsb' k 8 = x := fun k x hx =>
    BitVec.eq_of_getLsbD_eq fun i hi => by simpa [BitVec.getLsbD_extractLsb', hi] using hx i hi
  simp only [bytesLe32]
  rw [h 0 a, h 8 b, h 16 c, h 24 d] <;> intro i hi <;> simp only [le32_getLsbD]
  · rw [if_neg (by omega), if_neg (by omega), if_neg (by omega)]; congr 1; omega
  · rw [if_neg (by omega), if_neg (by omega), if_pos (by omega)]; congr 1; omega
  · rw [if_neg (by omega), if_pos (by omega)]; congr 1; omega
  · rw [if_pos (by omega)]; congr 1; omega

/-- Assembling is one to one. -/
theorem le32_inj {a b c d a' b' c' d' : Byte} (h : le32 a b c d = le32 a' b' c' d') :
    a = a' ∧ b = b' ∧ c = c' ∧ d = d' := by
  have := congrArg bytesLe32 h
  simpa [bytesLe32_le32] using this

@[simp] theorem wireRecord_length (w : BitVec 32) (len : Byte) (p : Payload) : (wireRecord w len p).length = 16 := rfl

@[simp] theorem payloadBytes_length (p : Payload) : (payloadBytes p).length = 8 := rfl

@[simp] theorem chunk_length (F : Frame) : (chunk F).length = 7 := rfl

/-- Decoding a wire record gives its fields; `W[30:29]` is dropped (R51, R76). -/
theorem decodeRecord_wireRecord (w : BitVec 32) (len : Byte) (p : Payload) :
    decodeRecord (wireRecord w len p) =
      some { id := w.extractLsb' 0 29, ext := w.getLsbD 31, len := len, payload := p } := by
  have h : le32 (byteAt (wireRecord w len p) 0) (byteAt (wireRecord w len p) 1) (byteAt (wireRecord w len p) 2)
      (byteAt (wireRecord w len p) 3) = w := le32_of_bytes w
  simp only [decodeRecord, wireRecord_length, wireSize, if_true, h]
  rfl

/-- What is decoded is a byte string of 16 bytes, and nothing else is (R60, R76). -/
theorem decodeRecord_eq_none_iff (raw : Bytes) : decodeRecord raw = none ↔ raw.length ≠ 16 := by
  unfold decodeRecord wireSize
  split <;> simp_all

/-- When ENCODE answers InvalidPayload, spelt out (R74). -/
theorem encodeRefused_iff (id : BitVec 32) (len : Byte) (pl : Bytes) :
    encodeRefused id len pl = true ↔ 8 < pl.length ∨ 8 < len.toNat ∨ 2 ^ 29 ≤ id.toNat := by
  simp only [encodeRefused, Bool.or_eq_true, decide_eq_true_eq]
  exact or_assoc

/-- ENCODE's record where it gives one (R74). -/
theorem encodeRecord_eq_some {id : BitVec 32} {len : Byte} {pl : Bytes} (h1 : pl.length ≤ 8) (h2 : len.toNat ≤ 8)
    (h3 : id.toNat < 2 ^ 29) :
    encodeRecord id len pl = some (wireRecord (extFlag ||| id) len (payloadOf (paddedByte len pl))) := by
  have h : ¬ encodeRefused id len pl = true := by
    rw [encodeRefused_iff, not_or, not_or]
    exact ⟨not_lt.2 h1, not_lt.2 h2, not_le.2 h3⟩
  rw [encodeRecord, if_neg h]

/-- ENCODE gives no record exactly where it refuses its operands (R74). -/
theorem encodeRecord_eq_none_iff (id : BitVec 32) (len : Byte) (pl : Bytes) :
    encodeRecord id len pl = none ↔ 8 < pl.length ∨ 8 < len.toNat ∨ 2 ^ 29 ≤ id.toNat := by
  rw [← encodeRefused_iff, encodeRecord]
  split <;> simp_all

/-- What decoding 16 bytes gives (R76). -/
theorem decodeRecord_of_length {raw : Bytes} (h : raw.length = 16) :
    decodeRecord raw = some
      { id := (le32 (byteAt raw 0) (byteAt raw 1) (byteAt raw 2) (byteAt raw 3)).extractLsb' 0 29,
        ext := (le32 (byteAt raw 0) (byteAt raw 1) (byteAt raw 2) (byteAt raw 3)).getLsbD 31,
        len := byteAt raw 4, payload := payloadOf fun k => byteAt raw (8 + k) } := by
  unfold decodeRecord
  exact if_pos h

/-- A string of 16 bytes is a wire record with its three padding bytes as they come. -/
theorem eq_of_length_sixteen {raw : Bytes} (h : raw.length = 16) :
    raw = bytesLe32 (le32 (byteAt raw 0) (byteAt raw 1) (byteAt raw 2) (byteAt raw 3)) ++
      [byteAt raw 4, byteAt raw 5, byteAt raw 6, byteAt raw 7] ++
      payloadBytes (payloadOf fun k => byteAt raw (8 + k)) := by
  rw [bytesLe32_le32]
  match raw, h with
  | [_, _, _, _, _, _, _, _, _, _, _, _, _, _, _, _], _ => rfl

/-- The flag word has bit 31 alone (R51). -/
theorem extFlag_getLsbD (i : Nat) : extFlag.getLsbD i = decide (i = 31) := by
  rw [show extFlag = BitVec.twoPow 32 31 from by decide, BitVec.getLsbD_twoPow]
  simp [eq_comm]

theorem extFlag_getElem (i : Nat) (h : i < 32) : extFlag[i] = decide (i = 31) := by
  rw [← BitVec.getLsbD_eq_getElem, extFlag_getLsbD]

/-- A decoded frame's own record decodes to the frame. -/
theorem decodeRecord_frameRecord (F : Frame) : decodeRecord (frameRecord F) = some F := by
  rw [frameRecord, decodeRecord_wireRecord]
  obtain ⟨id, ext, len, p⟩ := F
  simp only [frameWord, Option.some.injEq, Frame.mk.injEq, and_true]
  constructor
  · refine BitVec.eq_of_getLsbD_eq fun i hi => ?_
    have h31 : i ≠ 31 := by omega
    have h32 : i < 32 := by omega
    cases ext <;> simp [extFlag_getElem, hi, h31, h32]
  · cases ext <;> simp [extFlag_getLsbD]

/-- The identifier field of the word ENCODE writes is the identifier operand (R74). -/
theorem extFlag_or_id (id : BitVec 32) : (extFlag ||| id).extractLsb' 0 29 = id.setWidth 29 := by
  refine BitVec.eq_of_getLsbD_eq fun i hi => ?_
  have h31 : i ≠ 31 := by omega
  simp [extFlag_getLsbD, hi, h31]

/-- The extended-format flag of the word ENCODE writes is set (R74). -/
theorem extFlag_or_flag (id : BitVec 32) : (extFlag ||| id).getLsbD 31 = true := by
  simp [extFlag_getLsbD]

end Sys2Proof.Machine
end

