-- ==== Sys2Proof/Laws/State.lean ====
section
/-! SUPPORT. One lemma per field per update of `State`, each true by `rfl`: no later proof unfolds an update. -/

namespace Sys2Proof.Machine

/-! ### `State.respond` -/

@[simp] theorem State.respond_rs (s : State) (st : Status) (r : Bytes) : (s.respond st r).rs = s.rs := rfl
@[simp] theorem State.respond_tl (s : State) (st : Status) (r : Bytes) : (s.respond st r).tl = s.tl := rfl
@[simp] theorem State.respond_epc (s : State) (st : Status) (r : Bytes) : (s.respond st r).epc = s.epc := rfl
@[simp] theorem State.respond_rpc (s : State) (st : Status) (r : Bytes) : (s.respond st r).rpc = s.rpc := rfl
@[simp] theorem State.respond_accLen (s : State) (st : Status) (r : Bytes) : (s.respond st r).accLen = s.accLen := rfl
@[simp] theorem State.respond_acc (s : State) (st : Status) (r : Bytes) : (s.respond st r).acc = s.acc := rfl
@[simp] theorem State.respond_cfg (s : State) (st : Status) (r : Bytes) : (s.respond st r).cfg = s.cfg := rfl
@[simp] theorem State.respond_port (s : State) (st : Status) (r : Bytes) : (s.respond st r).port = s.port := rfl
@[simp] theorem State.respond_out (s : State) (st : Status) (r : Bytes) : (s.respond st r).out = s.out ++ [⟨st, r⟩] := rfl

/-! ### `State.present` -/

@[simp] theorem State.present_rs (s : State) (c : Command) : (s.present c).rs = s.rs := rfl
@[simp] theorem State.present_tl (s : State) (c : Command) : (s.present c).tl = s.tl := rfl
@[simp] theorem State.present_epc (s : State) (c : Command) : (s.present c).epc = s.epc := rfl
@[simp] theorem State.present_rpc (s : State) (c : Command) : (s.present c).rpc = s.rpc := rfl
@[simp] theorem State.present_accLen (s : State) (c : Command) : (s.present c).accLen = s.accLen := rfl
@[simp] theorem State.present_acc (s : State) (c : Command) : (s.present c).acc = s.acc := rfl
@[simp] theorem State.present_cfg (s : State) (c : Command) : (s.present c).cfg = s.cfg := rfl
@[simp] theorem State.present_port (s : State) (c : Command) : (s.present c).port = s.port ++ [c] := rfl
@[simp] theorem State.present_out (s : State) (c : Command) : (s.present c).out = s.out := rfl

/-! ### `State.start` -/

@[simp] theorem State.start_rs (s : State) (F : Frame) : (s.start F).rs = .collecting := rfl
@[simp] theorem State.start_tl (s : State) (F : Frame) : (s.start F).tl = totalLength F := rfl
@[simp] theorem State.start_epc (s : State) (F : Frame) : (s.start F).epc = expectedPackets F := rfl
@[simp] theorem State.start_rpc (s : State) (F : Frame) : (s.start F).rpc = 0 := rfl
@[simp] theorem State.start_accLen (s : State) (F : Frame) : (s.start F).accLen = 0 := rfl
@[simp] theorem State.start_acc (s : State) (F : Frame) : (s.start F).acc = [] := rfl
@[simp] theorem State.start_cfg (s : State) (F : Frame) : (s.start F).cfg = s.cfg := rfl
@[simp] theorem State.start_port (s : State) (F : Frame) : (s.start F).port = s.port := rfl
@[simp] theorem State.start_out (s : State) (F : Frame) : (s.start F).out = s.out := rfl

/-! ### `State.clear` -/

@[simp] theorem State.clear_rs (s : State) : (s.clear).rs = .idle := rfl
@[simp] theorem State.clear_tl (s : State) : (s.clear).tl = 0 := rfl
@[simp] theorem State.clear_epc (s : State) : (s.clear).epc = 0 := rfl
@[simp] theorem State.clear_rpc (s : State) : (s.clear).rpc = 0 := rfl
@[simp] theorem State.clear_accLen (s : State) : (s.clear).accLen = 0 := rfl
@[simp] theorem State.clear_acc (s : State) : (s.clear).acc = [] := rfl
@[simp] theorem State.clear_cfg (s : State) : (s.clear).cfg = s.cfg := rfl
@[simp] theorem State.clear_port (s : State) : (s.clear).port = s.port := rfl
@[simp] theorem State.clear_out (s : State) : (s.clear).out = s.out := rfl

/-! ### `State.append` -/

@[simp] theorem State.append_rs (s : State) (F : Frame) : (s.append F).rs = if completes (s.accLen + 7) s.tl then .complete else .collecting := rfl
@[simp] theorem State.append_tl (s : State) (F : Frame) : (s.append F).tl = s.tl := rfl
@[simp] theorem State.append_epc (s : State) (F : Frame) : (s.append F).epc = s.epc := rfl
@[simp] theorem State.append_rpc (s : State) (F : Frame) : (s.append F).rpc = s.rpc + 1 := rfl
@[simp] theorem State.append_accLen (s : State) (F : Frame) : (s.append F).accLen = s.accLen + 7 := rfl
@[simp] theorem State.append_acc (s : State) (F : Frame) : (s.append F).acc = cellsWrite s.acc s.accLen.toNat (chunk F) := rfl
@[simp] theorem State.append_cfg (s : State) (F : Frame) : (s.append F).cfg = s.cfg := rfl
@[simp] theorem State.append_port (s : State) (F : Frame) : (s.append F).port = s.port := rfl
@[simp] theorem State.append_out (s : State) (F : Frame) : (s.append F).out = s.out := rfl

/-! ### `State.resetWith` -/

@[simp] theorem State.resetWith_rs (c : Config) : (State.resetWith c).rs = .idle := rfl
@[simp] theorem State.resetWith_tl (c : Config) : (State.resetWith c).tl = 0 := rfl
@[simp] theorem State.resetWith_epc (c : Config) : (State.resetWith c).epc = 0 := rfl
@[simp] theorem State.resetWith_rpc (c : Config) : (State.resetWith c).rpc = 0 := rfl
@[simp] theorem State.resetWith_accLen (c : Config) : (State.resetWith c).accLen = 0 := rfl
@[simp] theorem State.resetWith_acc (c : Config) : (State.resetWith c).acc = [] := rfl
@[simp] theorem State.resetWith_cfg (c : Config) : (State.resetWith c).cfg = c := rfl
@[simp] theorem State.resetWith_port (c : Config) : (State.resetWith c).port = [] := rfl
@[simp] theorem State.resetWith_out (c : Config) : (State.resetWith c).out = [] := rfl

/-! ### `State.withFetchWord` -/

@[simp] theorem State.withFetchWord_rs (s : State) (nbits w : Nat) : (s.withFetchWord nbits w).rs = s.rs := rfl
@[simp] theorem State.withFetchWord_tl (s : State) (nbits w : Nat) : (s.withFetchWord nbits w).tl = s.tl := rfl
@[simp] theorem State.withFetchWord_epc (s : State) (nbits w : Nat) : (s.withFetchWord nbits w).epc = s.epc := rfl
@[simp] theorem State.withFetchWord_rpc (s : State) (nbits w : Nat) : (s.withFetchWord nbits w).rpc = s.rpc := rfl
@[simp] theorem State.withFetchWord_accLen (s : State) (nbits w : Nat) : (s.withFetchWord nbits w).accLen = s.accLen := rfl
@[simp] theorem State.withFetchWord_acc (s : State) (nbits w : Nat) : (s.withFetchWord nbits w).acc = s.acc := rfl
@[simp] theorem State.withFetchWord_cfg (s : State) (nbits w : Nat) : (s.withFetchWord nbits w).cfg = s.cfg := rfl
@[simp] theorem State.withFetchWord_port (s : State) (nbits w : Nat) : (s.withFetchWord nbits w).port = tableCommand nbits w :: s.port := rfl
@[simp] theorem State.withFetchWord_out (s : State) (nbits w : Nat) : (s.withFetchWord nbits w).out = s.out := rfl

end Sys2Proof.Machine
end

