-- ==== Sys2Proof/Laws/Memory.lean ====
section
/-! SUPPORT. The accumulator space (00_scope.md R13, 20_memory.md R36): a read after a write, the canonical form that every
operation keeps, and the bytes a run of appends leaves (10_state.md R26). -/

namespace Sys2Proof.Machine

/-- A byte read after a write of one byte: the byte written at its address, what was there elsewhere. -/
theorem cellGet_cellSet (m : List Host.Cell) (a : Nat) (v : Byte) (x : Nat) :
    cellGet (cellSet m a v) x = if x = a then some v else cellGet m x := by
  induction m with
  | nil => rfl
  | cons c rest ih =>
    obtain ⟨k, w⟩ := c
    simp only [cellSet]
    split_ifs with h1 h2 h3 <;> simp_all [cellGet]

/-- A byte read after `MemWrite`: byte `x - a` of the string inside it, what was there outside. -/
theorem cellGet_cellsWrite (m : List Host.Cell) (a : Nat) (b : Bytes) (x : Nat) :
    cellGet (cellsWrite m a b) x =
      if a ≤ x ∧ x < a + b.length then some (b.getD (x - a) 0) else cellGet m x := by
  induction b generalizing m a with
  | nil => simp only [cellsWrite, List.length_nil]; rw [if_neg (by omega)]
  | cons v bs ih =>
    rw [cellsWrite, ih, cellGet_cellSet]
    simp only [List.length_cons]
    by_cases h1 : a + 1 ≤ x ∧ x < a + 1 + bs.length
    · rw [if_pos h1, if_pos (by omega), show x - a = (x - (a + 1)) + 1 by omega]; rfl
    · rw [if_neg h1]
      by_cases h2 : x = a
      · subst h2; simp
      · rw [if_neg h2, if_neg (by omega)]

/-- Writing one byte adds its address to those listed and no other. -/
theorem mem_keys_cellSet (m : List Host.Cell) (a : Nat) (v : Byte) (k : Nat) :
    k ∈ (cellSet m a v).map Prod.fst ↔ k = a ∨ k ∈ m.map Prod.fst := by
  induction m with
  | nil => simp [cellSet]
  | cons c rest ih =>
    obtain ⟨j, w⟩ := c
    simp only [cellSet]
    split_ifs with h1 h2
    · simp
    · subst h2; simp
    · rw [List.map_cons, List.mem_cons, ih, List.map_cons, List.mem_cons]; tauto

/-- The canonical form, spelt out. -/
theorem accWf_iff (m : List Host.Cell) :
    accWf m = true ↔ (m.map Prod.fst).Pairwise (· < ·) ∧ ∀ k ∈ m.map Prod.fst, k < accCap := by
  simp [accWf]

/-- Writing a byte keeps addresses rising. -/
theorem cellSet_pairwise (m : List Host.Cell) (a : Nat) (v : Byte) (h : (m.map Prod.fst).Pairwise (· < ·)) :
    ((cellSet m a v).map Prod.fst).Pairwise (· < ·) := by
  induction m with
  | nil => simp [cellSet]
  | cons c rest ih =>
    obtain ⟨k, w⟩ := c
    rw [List.map_cons, List.pairwise_cons] at h
    simp only [cellSet]
    split_ifs with h1 h2
    · rw [List.map_cons, List.map_cons, List.pairwise_cons, List.pairwise_cons]
      refine ⟨fun x hx => ?_, h⟩
      rcases List.mem_cons.1 hx with rfl | hx
      · exact h1
      · exact lt_trans h1 (h.1 x hx)
    · subst h2; rw [List.map_cons, List.pairwise_cons]; exact h
    · rw [List.map_cons, List.pairwise_cons]
      refine ⟨fun x hx => ?_, ih h.2⟩
      rcases (mem_keys_cellSet rest a v x).1 hx with rfl | hx
      · show k < x; omega
      · exact h.1 x hx

/-- Writing a byte of `ACC` keeps the canonical form. -/
theorem cellSet_wf (m : List Host.Cell) (a : Nat) (v : Byte) (h : accWf m = true) (ha : a < accCap) :
    accWf (cellSet m a v) = true := by
  rw [accWf_iff] at h ⊢
  refine ⟨cellSet_pairwise m a v h.1, fun k hk => ?_⟩
  rcases (mem_keys_cellSet m a v k).1 hk with rfl | hk
  · exact ha
  · exact h.2 k hk

/-- `MemWrite` inside `ACC` keeps the canonical form. -/
theorem cellsWrite_wf (m : List Host.Cell) (a : Nat) (b : Bytes) (h : accWf m = true) (ha : a + b.length ≤ accCap) :
    accWf (cellsWrite m a b) = true := by
  induction b generalizing m a with
  | nil => exact h
  | cons v bs ih =>
    rw [List.length_cons] at ha
    exact ih _ _ (cellSet_wf m a v h (by omega)) (by omega)

/-- The empty memory of reset has the canonical form. -/
theorem accWf_nil : accWf [] = true := by decide

/-- Writing past all listed addresses lists the new one last. -/
theorem cellSet_end (m : List Host.Cell) (a : Nat) (v : Byte) (h : ∀ k ∈ m.map Prod.fst, k < a) :
    cellSet m a v = m ++ [(a, v)] := by
  induction m with
  | nil => rfl
  | cons c rest ih =>
    obtain ⟨k, w⟩ := c
    have hk : k < a := h k (by simp)
    simp only [cellSet]
    rw [if_neg (by omega), if_neg (by omega), ih fun x hx => h x (by simp [hx])]
    rfl

/-- Appending a string at the end of a memory that lists exactly the addresses below `n` (R26, R91). -/
theorem keys_cellsWrite (m : List Host.Cell) (n : Nat) (b : Bytes) (h : m.map Prod.fst = List.range n) :
    (cellsWrite m n b).map Prod.fst = List.range (n + b.length) := by
  induction b generalizing m n with
  | nil => simpa [cellsWrite] using h
  | cons v bs ih =>
    rw [cellsWrite, ih, List.length_cons]
    · congr 1; omega
    · rw [cellSet_end m n v fun k hk => by rw [h] at hk; exact List.mem_range.1 hk,
        List.map_append, h, List.range_succ]
      rfl

/-- A listed address has a value and no other has. -/
theorem cellGet_isSome_iff (m : List Host.Cell) (a : Nat) : (cellGet m a).isSome = true ↔ a ∈ m.map Prod.fst := by
  induction m with
  | nil => simp [cellGet]
  | cons c rest ih =>
    obtain ⟨k, w⟩ := c
    simp only [cellGet, List.map_cons, List.mem_cons]
    split_ifs with h1
    · simp [h1]
    · rw [ih]; tauto

/-- `MemRead` answers a string of the length asked for, each byte the value at its address. -/
theorem cellsRead_eq_some {m : List Host.Cell} {a n : Nat} {b : Bytes} (h : cellsRead m a n = some b) :
    b.length = n ∧ ∀ j, j < n → cellGet m (a + j) = some (b.getD j 0) := by
  induction n generalizing a b with
  | zero => simp only [cellsRead, Option.some.injEq] at h; subst h; simp
  | succ n ih =>
    simp only [cellsRead, Option.bind_eq_some_iff, Option.map_eq_some_iff] at h
    obtain ⟨v, hv, bs, hbs, rfl⟩ := h
    obtain ⟨hl, hg⟩ := ih hbs
    refine ⟨by simp [hl], fun j hj => ?_⟩
    cases j with
    | zero => simpa using hv
    | succ j => rw [show a + (j + 1) = a + 1 + j by omega, hg j (by omega)]; rfl

/-- `MemRead` answers where every byte has a value. -/
theorem cellsRead_isSome (m : List Host.Cell) (a n : Nat) (h : ∀ j, j < n → (cellGet m (a + j)).isSome = true) :
    ∃ b, cellsRead m a n = some b := by
  induction n generalizing a with
  | zero => exact ⟨[], rfl⟩
  | succ n ih =>
    obtain ⟨v, hv⟩ := Option.isSome_iff_exists.1 (h 0 (by omega))
    obtain ⟨bs, hbs⟩ := ih (a + 1) fun j hj => by
      rw [show a + 1 + j = a + (j + 1) by omega]; exact h (j + 1) (by omega)
    exact ⟨v :: bs, by rw [Nat.add_zero] at hv; simp [cellsRead, hv, hbs]⟩

end Sys2Proof.Machine
end

