-- ==== Sys2Proof/Laws/Ops.lean ====
section
/-! SUPPORT. What each shared operation can do, said once (00_scope.md R14, 41_reassembler.md R87 to R95); then what `exec` and
`step` can do. Later proofs cite these and do not unfold the operations. -/

namespace Sys2Proof.Machine

@[simp] theorem raiseError_eq (s : State) (e : Status) : raiseError s e = .next (s.respond e []) := rfl

@[simp] theorem answer_eq (s : State) (r : Bytes) : answer s r = .next (s.respond .ok r) := rfl

@[simp] theorem answerRx_eq (s : State) (o : RxOutcome) : answerRx s o = .next (s.respond .ok [o.code]) := rfl

@[simp] theorem andThen_next (s : State) (f : State → Host.Outcome State Fault Refusal) : andThen (.next s) f = f s := rfl

/-- The sequence test, spelt out (R94). -/
theorem seqOk_iff (s : State) (F : Frame) :
    seqOk s F = true ↔ s.cfg.strictSeq = false ∨ F.payload.b0.toNat = s.rpc.toNat + 1 := by
  unfold seqOk sequenceNumber
  rw [Bool.or_eq_true, decide_eq_true_iff, Bool.not_eq_true']

/-- The completion test, spelt out (R92). -/
theorem completes_iff (l : BitVec 9) (tl : Byte) : completes l tl = true ↔ tl.toNat ≤ l.toNat := decide_eq_true_iff

/-- Inside `ACC` the new length does not wrap (R29). -/
theorem accLen_add_seven {s : State} (h : s.accLen.toNat + 7 ≤ 259) : (s.accLen + 7).toNat = s.accLen.toNat + 7 := by
  rw [BitVec.toNat_add]
  exact Nat.mod_eq_of_lt (by simpa using (show s.accLen.toNat + 7 < 512 by omega))

/-- The classes, spelt out for a configuration that R10 allows: the two PGN tests exclude each other (R86). -/
theorem classify_eq_data_iff {c : Config} {F : Frame} (hw : c.wf = true) :
    classify c F = .data ↔ (pgnf F &&& c.pgnMask) = (c.tpdtPgn &&& c.pgnMask) ∧ sourceAddress F = c.respSa := by
  have hne : (c.tpcmPgn &&& c.pgnMask) ≠ (c.tpdtPgn &&& c.pgnMask) := by simpa [Config.wf] using hw
  unfold classify
  split_ifs with h1 h2
  · simp only [Bool.and_eq_true, beq_iff_eq] at h1
    exact ⟨fun h => (nomatch h), fun h => absurd (h1.1.1.1.symm.trans h.1) hne⟩
  · simpa using h2
  · simp only [Bool.and_eq_true, beq_iff_eq] at h2
    exact ⟨fun h => (nomatch h), fun h => absurd h h2⟩

/-- The CTRL class, spelt out (R57). -/
theorem classify_eq_ctrl_iff (c : Config) (F : Frame) :
    classify c F = .ctrl ↔ (pgnf F &&& c.pgnMask) = (c.tpcmPgn &&& c.pgnMask) ∧ sourceAddress F = c.respSa ∧
      F.payload.b0 = c.bamCode ∧ embeddedPgn F = targetPgn := by
  unfold classify
  split_ifs with h1 h2 <;> simp only [Bool.and_eq_true, beq_iff_eq] at h1
  · exact ⟨fun _ => ⟨h1.1.1.1, h1.1.1.2, h1.1.2, h1.2⟩, fun _ => rfl⟩
  · exact ⟨fun h => (nomatch h), fun h => absurd ⟨⟨⟨h.1, h.2.1⟩, h.2.2.1⟩, h.2.2.2⟩ h1⟩
  · exact ⟨fun h => (nomatch h), fun h => absurd ⟨⟨⟨h.1, h.2.1⟩, h.2.2.1⟩, h.2.2.2⟩ h1⟩

/-- An append answers a next state exactly where `ACC` has room, and then the appended state (R91). -/
theorem appendFrame_eq_next_iff {s t : State} {F : Frame} :
    appendFrame s F = .next t ↔
      s.accLen.toNat + 7 ≤ 259 ∧
        t = (s.append F).respond .ok
          [(if completes (s.accLen + 7) s.tl then RxOutcome.completed else RxOutcome.appended).code] := by
  unfold appendFrame chunkSize accCap
  by_cases hl : s.accLen.toNat + 7 ≤ 259
  · rw [if_pos hl, answerRx_eq]
    exact ⟨fun h => ⟨hl, by cases h; rfl⟩, fun h => by rw [h.2]⟩
  · rw [if_neg hl]
    exact ⟨fun h => (nomatch h), fun h => absurd h.1 hl⟩

/-- Everything a received frame can do: nothing but answer Ignored, start, restart, or append (R88). -/
theorem receive_cases {s t : State} {F : Frame} (h : receive s F = .next t) :
    t = s.respond .ok [RxOutcome.ignored.code] ∨
    (classify s.cfg F = .ctrl ∧ s.rs = .idle ∧ t = (s.start F).respond .ok [RxOutcome.started.code]) ∨
    (classify s.cfg F = .ctrl ∧ s.rs = .collecting ∧ t = (s.start F).respond .ok [RxOutcome.restarted.code]) ∨
    (classify s.cfg F = .data ∧ s.rs = .collecting ∧ seqOk s F = true ∧ s.accLen.toNat + 7 ≤ 259 ∧
      t = (s.append F).respond .ok
        [(if completes (s.accLen + 7) s.tl then RxOutcome.completed else RxOutcome.appended).code]) := by
  unfold receive receiveCtrl receiveData receiveUnm at h
  cases hc : classify s.cfg F <;> cases hr : s.rs <;> simp only [hc, hr, answerRx_eq] at h
  case data.collecting =>
    split_ifs at h with hq
    · exact .inr (.inr (.inr ⟨rfl, rfl, hq, appendFrame_eq_next_iff.1 h⟩))
    · cases h; exact .inl rfl
  all_goals cases h; simp

/-- Everything a raw byte string can do (R77, R88). -/
theorem receiveRaw_cases {s t : State} {raw : Bytes} (h : receiveRaw s raw = .next t) :
    (raw.length ≠ 16 ∧ t = s.respond .malformedFrame []) ∨
    ∃ F, decodeRecord raw = some F ∧ receive s F = .next t := by
  unfold receiveRaw at h
  split at h
  · rename_i hd
    cases h; exact .inl ⟨(decodeRecord_eq_none_iff raw).1 hd, rfl⟩
  · rename_i F hd
    exact .inr ⟨F, hd, h⟩

/-- A frame instruction is the move of its class. -/
theorem exec_frameInstr (s : State) (F : Frame) : exec (frameInstr s.cfg F) s = receive s F := by
  unfold frameInstr receive
  cases classify s.cfg F <;> rfl

theorem exec_rx (s : State) (raw : Bytes) : exec (.rx raw) s = receiveRaw s raw := rfl

theorem exec_rxw (s : State) (w : BitVec 32) (len : Byte) (data : Payload) :
    exec (.rxw w len data) s = receiveRaw s (wireRecord w len data) := rfl

theorem exec_rxf (s : State) (id : BitVec 32) (len : Byte) (data : Bytes) :
    exec (.rxf id len data) s =
      match encodeRecord id len data with
      | some r => receiveRaw s r
      | none => .refused .assemblyError := rfl

/-- RX of a string that decodes is the decoded frame received (R88). -/
theorem receiveRaw_of_decode {s : State} {raw : Bytes} {F : Frame} (h : decodeRecord raw = some F) :
    receiveRaw s raw = receive s F := by rw [receiveRaw, h]

/-- Everything a received frame's class move can do, whatever class the frame has. -/
theorem receiveCtrl_cases {s t : State} {F : Frame} (h : receiveCtrl s F = .next t) :
    t = s.respond .ok [RxOutcome.ignored.code] ∨
    ∃ o : RxOutcome, s.rs ≠ .complete ∧ t = (s.start F).respond .ok [o.code] := by
  unfold receiveCtrl at h
  cases hr : s.rs <;> simp only [hr, answerRx_eq] at h <;> cases h
  · exact .inr ⟨.started, by simp, rfl⟩
  · exact .inr ⟨.restarted, by simp, rfl⟩
  · exact .inl rfl

/-- The same for the DATA move. -/
theorem receiveData_cases {s t : State} {F : Frame} (h : receiveData s F = .next t) :
    t = s.respond .ok [RxOutcome.ignored.code] ∨
    (s.rs = .collecting ∧ s.accLen.toNat + 7 ≤ 259 ∧ ∃ o : RxOutcome, t = (s.append F).respond .ok [o.code]) := by
  unfold receiveData at h
  cases hr : s.rs <;> simp only [hr, answerRx_eq] at h
  · cases h; exact .inl rfl
  · split_ifs at h
    · obtain ⟨hl, ht⟩ := appendFrame_eq_next_iff.1 h
      exact .inr ⟨rfl, hl, _, ht⟩
    · cases h; exact .inl rfl
  · cases h; exact .inl rfl

/-- Everything an instruction can do to an FCR, responses aside: nothing, `start`, `append`, or the reset state (R20, R45). -/
theorem exec_cases {i : Instr} {s t : State} (h : exec i s = .next t) :
    (∃ st r, t = s.respond st r) ∨
    (∃ F o, s.rs ≠ .complete ∧ t = (s.start F).respond .ok [o]) ∨
    (∃ F o, s.rs = .collecting ∧ s.accLen.toNat + 7 ≤ 259 ∧ t = (s.append F).respond .ok [o]) ∨
    t = s.clear.respond .ok [] ∨
    ∃ r, t = (s.clear.respond .ok []).respond .ok r := by
  have hraw : ∀ raw, receiveRaw s raw = .next t →
      (∃ st r, t = s.respond st r) ∨ (∃ F o, s.rs ≠ .complete ∧ t = (s.start F).respond .ok [o]) ∨
      (∃ F o, s.rs = .collecting ∧ s.accLen.toNat + 7 ≤ 259 ∧ t = (s.append F).respond .ok [o]) := by
    intro raw hr
    rcases receiveRaw_cases hr with ⟨-, rfl⟩ | ⟨F, -, hF⟩
    · exact .inl ⟨_, _, rfl⟩
    · rcases receive_cases hF with rfl | ⟨-, hs, rfl⟩ | ⟨-, hs, rfl⟩ | ⟨-, hs, -, hl, rfl⟩
      · exact .inl ⟨_, _, rfl⟩
      · exact .inr (.inl ⟨F, _, by simp [hs], rfl⟩)
      · exact .inr (.inl ⟨F, _, by simp [hs], rfl⟩)
      · exact .inr (.inr ⟨F, _, hs, hl, rfl⟩)
  have lift : ∀ {P Q R S T : Prop}, P ∨ Q ∨ R → P ∨ Q ∨ R ∨ S ∨ T := by tauto
  cases i with
  | encode id len pl =>
    simp only [exec, execEncode] at h
    split at h <;> cases h <;> exact .inl ⟨_, _, rfl⟩
  | decode raw =>
    simp only [exec, execDecode] at h
    split at h <;> cases h <;> exact .inl ⟨_, _, rfl⟩
  | readVin =>
    simp only [exec, execReadVin] at h
    split at h
    · cases h; exact .inl ⟨_, _, rfl⟩
    · cases h; exact .inl ⟨_, _, rfl⟩
    · split at h <;> cases h; exact .inl ⟨_, _, rfl⟩
  | rx raw => exact lift (hraw raw h)
  | rxw w len data => exact lift (hraw (wireRecord w len data) h)
  | rxf id len data =>
    simp only [exec, execRxf] at h
    split at h
    · exact lift (hraw _ h)
    · cases h
  | frameCtrl F =>
    rcases receiveCtrl_cases h with rfl | ⟨o, hr, rfl⟩
    · exact .inl ⟨_, _, rfl⟩
    · exact .inr (.inl ⟨F, _, hr, rfl⟩)
  | frameData F =>
    rcases receiveData_cases h with rfl | ⟨hr, hl, o, rfl⟩
    · exact .inl ⟨_, _, rfl⟩
    · exact .inr (.inr (.inl ⟨F, _, hr, hl, rfl⟩))
  | reset => cases h; exact .inr (.inr (.inr (.inl rfl)))
  | begin sa => cases h; exact .inr (.inr (.inr (.inr ⟨_, rfl⟩)))
  | buildReq | status | reserved00 | reserved08 | reserved10 | reserved20 | reserved40 | reserved80 | frameUnm =>
    cases h; exact .inl ⟨_, _, rfl⟩

/-- An outcome with a next state that passes a test, from the test as data: for concrete states. -/
theorem exists_next {o : Host.Outcome State Fault Refusal} {p : State → Bool} (h : (nextState o).any p = true) :
    ∃ t, o = .next t ∧ p t = true := by
  cases o with
  | next t => exact ⟨t, rfl, h⟩
  | fault r => cases h
  | refused r => cases h

theorem nextState_eq_some {o : Host.Outcome State Fault Refusal} {t : State} (h : nextState o = some t) : o = .next t := by
  cases o with
  | next u => cases h; rfl
  | fault r => cases h
  | refused r => cases h

/-! ### One step -/

/-- A step on the oldest command of the port. -/
theorem step_cons {s : State} {c : Command} {rest : List Command} (hw : s.cfg.wf = true) (hp : s.port = c :: rest) :
    step s = match decode c with
      | .instr i => exec i { s with port := rest }
      | .reject _ => .next ({ s with port := rest }.respond .illegalCommand []) := by
  simp only [step, fetch, hw, hp, if_true]
  cases hd : decode c with
  | instr i => rfl
  | reject r => cases r; rfl

/-- A step with nothing presented. -/
theorem step_nil {s : State} (hw : s.cfg.wf = true) (hp : s.port = []) : step s = .next s := by
  simp only [step, fetch, hw, hp, if_true]; rfl

/-- `runSteps` is the host's own run of the machine. -/
theorem runSteps_eq_run (n : Nat) (s : State) : runSteps n s = Host.Core.run core n s := by
  induction n generalizing s with
  | zero => rfl
  | succ n ih =>
    have hs : core.step s = step s := rfl
    simp only [runSteps, Host.Core.run]
    rw [hs]
    cases step s with
    | next t => exact ih t
    | fault r => rfl
    | refused r => rfl

/-- A run over a list of commands is a step on its first and then a run over the others. -/
theorem drive_cons (c : Command) (cs : List Command) (s : State) :
    drive (c :: cs) s = andThen (step { s with port := c :: cs }) (runSteps cs.length) := rfl

end Sys2Proof.Machine
end

