-- ==== Sys2Proof/Laws/PerInstr.lean ====
section
/-! SUPPORT. Per-instruction families: statements about an instruction as syntax, one lemma per constructor. -/

namespace Sys2Proof.Laws.CommandCount

/-- An instruction is encoded as one command for each command of the block it stands for (30_encoding.md R69, R70). -/
def Statement (i : Instr) : Prop := (encode i).length = (expand i).length

theorem encode (id : BitVec 32) (len : Byte) (pl : Bytes) : Statement (.encode id len pl) := rfl
theorem decode (raw : Bytes) : Statement (.decode raw) := rfl
theorem buildReq (sa : Byte) : Statement (.buildReq sa) := rfl
theorem rx (raw : Bytes) : Statement (.rx raw) := rfl
theorem readVin : Statement .readVin := rfl
theorem status : Statement .status := rfl
theorem reset : Statement .reset := rfl
theorem reserved00 (opd : Bytes) : Statement (.reserved00 opd) := rfl
theorem reserved08 (low : BitVec 3) (opd : Bytes) : Statement (.reserved08 low opd) := rfl
theorem reserved10 (low : BitVec 4) (opd : Bytes) : Statement (.reserved10 low opd) := rfl
theorem reserved20 (low : BitVec 5) (opd : Bytes) : Statement (.reserved20 low opd) := rfl
theorem reserved40 (low : BitVec 6) (opd : Bytes) : Statement (.reserved40 low opd) := rfl
theorem reserved80 (low : BitVec 7) (opd : Bytes) : Statement (.reserved80 low opd) := rfl
theorem frameCtrl (F : Frame) : Statement (.frameCtrl F) := rfl
theorem frameData (F : Frame) : Statement (.frameData F) := rfl
theorem frameUnm (F : Frame) : Statement (.frameUnm F) := rfl
theorem rxf (id : BitVec 32) (len : Byte) (data : Bytes) : Statement (.rxf id len data) := by
  cases h : Machine.encodeRecord id len data <;> simp [Statement, Sys2Proof.encode, expand, h]
theorem rxw (w : BitVec 32) (len : Byte) (data : Payload) : Statement (.rxw w len data) := rfl
theorem begin (sa : Byte) : Statement (.begin sa) := rfl

end Sys2Proof.Laws.CommandCount
end

