-- ==== Sys2Proof/Machine/Assembler.lean ====
section
/-! DEFINITION. The assembler: its text (30_encoding.md R69), the pseudo-commands it expands (R70), and the text forms of a decoded
frame and a record (R71). It stands before the block, which never sees text. -/

namespace Sys2Proof.Machine

/-- Text, as its characters. -/
abbrev Text := List Char

/-! ### Reading -/

/-- A hexadecimal or decimal digit: its value, if it is below the base. -/
def digitValue (base : Nat) (c : Char) : Option Nat :=
  let v :=
    if '0' ≤ c ∧ c ≤ '9' then c.toNat - '0'.toNat
    else if 'A' ≤ c ∧ c ≤ 'F' then c.toNat - 'A'.toNat + 10
    else if 'a' ≤ c ∧ c ≤ 'f' then c.toNat - 'a'.toNat + 10
    else base
  if v < base then some v else none

/-- The digits that follow a number read so far. -/
def readDigits (base acc : Nat) : Text → Option Nat
  | [] => some acc
  | c :: cs => (digitValue base c).bind fun d => readDigits base (base * acc + d) cs

/-- "Numbers are hexadecimal with `0x`, or decimal" (R69), here below `bound`. -/
def readNumber (bound : Nat) (t : Text) : Option Nat :=
  let n :=
    match t with
    | [] => none
    | ['0', 'x'] => none
    | '0' :: 'x' :: ds => readDigits 16 0 ds
    | ds => readDigits 10 0 ds
  n.filter (· < bound)

/-- One byte of a list: two hexadecimal digits (R69; log 22). -/
def readByte (t : Text) : Option Byte :=
  match t with
  | [a, b] => (digitValue 16 a).bind fun x => (digitValue 16 b).map fun y => BitVec.ofNat 8 (16 * x + y)
  | _ => none

/-- The text without the spaces at its two ends. -/
def trimSpaces (t : Text) : Text :=
  ((t.dropWhile (· = ' ')).reverse.dropWhile (· = ' ')).reverse

/-- The words of a text, separated by spaces. -/
def wordsOf (t : Text) : List Text := (t.splitOn ' ').filter (· ≠ [])

/-- "Byte lists are written in brackets with hexadecimal bytes separated by spaces" (R69). -/
def readBytes (t : Text) : Option Bytes :=
  match t with
  | '[' :: rest =>
    match rest.reverse with
    | ']' :: inner => (wordsOf inner.reverse).mapM readByte
    | _ => none
  | _ => none

/-- An operand `name=value`: its value, if it has that name. -/
def operandValue (name : String) (t : Text) : Option Text :=
  match t.splitOn '=' with
  | [n, v] => if n = name.toList then some v else none
  | _ => none

/-- A number operand, of `width` bits. -/
def numberOperand (name : String) (width : Nat) (t : Text) : Option (BitVec width) :=
  (operandValue name t).bind fun v => (readNumber (2 ^ width) v).map (BitVec.ofNat width)

/-- A byte list operand. -/
def bytesOperand (name : String) (t : Text) : Option Bytes := (operandValue name t).bind readBytes

/-- The eight data bytes of an RXW (R70). -/
def payloadOperand (name : String) (t : Text) : Option Payload :=
  (bytesOperand name t).bind fun b => if b.length = payloadSize then some (payloadOf (byteAt b)) else none

/-- The operands of a line, separated by commas. -/
def operandsOf (t : Text) : List Text :=
  if trimSpaces t = [] then [] else (t.splitOn ',').map trimSpaces

/-- `id=<29-bit>, len=<0..8>, data=[..]` (R69, R70). -/
def readFrameOperands (f : BitVec 32 → Byte → Bytes → Instr) (ops : List Text) : Option Instr :=
  match ops with
  | [id, len, data] =>
    (numberOperand "id" 29 id).bind fun i =>
      ((numberOperand "len" 8 len).filter (·.toNat ≤ 8)).bind fun l =>
        (bytesOperand "data" data).map fun d => f (i.setWidth 32) l d
  | _ => none

/-- `raw=[..]`. -/
def readRawOperand (f : Bytes → Instr) (ops : List Text) : Option Instr :=
  match ops with
  | [raw] => (bytesOperand "raw" raw).map f
  | _ => none

/-- `sa=<8-bit>`. -/
def readSaOperand (f : Byte → Instr) (ops : List Text) : Option Instr :=
  match ops with
  | [sa] => (numberOperand "sa" 8 sa).map f
  | _ => none

/-- `w=<32-bit>, len=<8-bit>, data=[8 bytes]` (R70). -/
def readWordOperands (ops : List Text) : Option Instr :=
  match ops with
  | [w, len, data] =>
    (numberOperand "w" 32 w).bind fun x =>
      (numberOperand "len" 8 len).bind fun l => (payloadOperand "data" data).map fun d => .rxw x l d
  | _ => none

/-- The instruction a line writes: a mnemonic and its operands; none where it is no line of R69 or R70. -/
def readLine (line : Text) : Option Instr :=
  let t := trimSpaces line
  let m := t.takeWhile (· ≠ ' ')
  let ops := operandsOf (t.dropWhile (· ≠ ' '))
  if m = "ENCODE".toList then readFrameOperands .encode ops
  else if m = "DECODE".toList then readRawOperand .decode ops
  else if m = "BUILD_REQ".toList then readSaOperand .buildReq ops
  else if m = "RX".toList then readRawOperand .rx ops
  else if m = "READ_VIN".toList then (if ops = [] then some .readVin else none)
  else if m = "STATUS".toList then (if ops = [] then some .status else none)
  else if m = "RESET".toList then (if ops = [] then some .reset else none)
  else if m = "RXF".toList then readFrameOperands .rxf ops
  else if m = "RXW".toList then readWordOperands ops
  else if m = "BEGIN".toList then readSaOperand .begin ops
  else none

/-- The commands of a line, pseudo-commands expanded; none is an assembly error, RXF's among them (R70). -/
def assembleLine (line : Text) : Option (List Command) :=
  (readLine line).bind fun i => if encode i = [] then none else some (encode i)

/-- A program, "one command per line" (R69); blank lines hold none. -/
def assemble (t : Text) : Option (List Command) :=
  (((t.splitOn '\n').filter fun l => trimSpaces l ≠ []).mapM assembleLine).map List.flatten

/-! ### Writing -/

/-- A hexadecimal digit. -/
def hexDigit (n : Nat) : Char := if n < 10 then Char.ofNat ('0'.toNat + n) else Char.ofNat ('A'.toNat + (n - 10))

/-- `n` hexadecimal digits of a value, the highest first. -/
def hexDigits : Nat → Nat → Text
  | 0, _ => []
  | n + 1, v => hexDigits n (v / 16) ++ [hexDigit (v % 16)]

/-- A number in hexadecimal, with `0x`. -/
def hexNumber (digits v : Nat) : Text := '0' :: 'x' :: hexDigits digits v

/-- Bytes as two hexadecimal digits each, separated by spaces; this is also the text form of a record (R71). -/
def bytesText : Bytes → Text
  | [] => []
  | [b] => hexDigits 2 b.toNat
  | b :: bs => hexDigits 2 b.toNat ++ ' ' :: bytesText bs

/-- A byte list in brackets. -/
def listText (b : Bytes) : Text := '[' :: bytesText b ++ [']']

/-- The text form of a decoded frame, braces included (R71). -/
def frameText (F : Frame) : Text :=
  [Char.ofNat 0x7B] ++ "id=".toList ++ hexNumber 8 F.id.toNat ++ ", ext=".toList ++ [hexDigit (if F.ext then 1 else 0)] ++
    ", len=".toList ++ (if F.len.toNat < 10 then [hexDigit F.len.toNat] else hexNumber 2 F.len.toNat) ++
    ", p=".toList ++ listText (payloadBytes F.payload) ++ [Char.ofNat 0x7D]

/-- A command written as bytes: the opcode, then the operand (R62). -/
def commandText (c : Command) : Text := bytesText (c.op :: c.opd)

/-- The operands of ENCODE and RXF. -/
def frameOperandsText (id : BitVec 32) (len : Byte) (data : Bytes) : Text :=
  " id=".toList ++ hexNumber 8 id.toNat ++ ", len=".toList ++ hexNumber 2 len.toNat ++ ", data=".toList ++ listText data

/-- The line that writes an instruction. A reserved opcode has none, and a frame is written as the RX that presents it. R69 and R70
say of no line how it writes an ENCODE whose identifier or length is out of the range shown, nor an RXF that the assembler
rejects: the model's choice is that they have none (DESIGN CHOICE, log 22). -/
def lineText : Instr → Option Text
  | .encode id len pl =>
    if id.toNat < 2 ^ 29 ∧ len.toNat ≤ 8 then some ("ENCODE".toList ++ frameOperandsText id len pl) else none
  | .decode raw => some ("DECODE raw=".toList ++ listText raw)
  | .buildReq sa => some ("BUILD_REQ sa=".toList ++ hexNumber 2 sa.toNat)
  | .rx raw => some ("RX raw=".toList ++ listText raw)
  | .readVin => some "READ_VIN".toList
  | .status => some "STATUS".toList
  | .reset => some "RESET".toList
  | .reserved00 _ => none
  | .reserved08 _ _ => none
  | .reserved10 _ _ => none
  | .reserved20 _ _ => none
  | .reserved40 _ _ => none
  | .reserved80 _ _ => none
  | .frameCtrl F => some ("RX raw=".toList ++ listText (frameRecord F))
  | .frameData F => some ("RX raw=".toList ++ listText (frameRecord F))
  | .frameUnm F => some ("RX raw=".toList ++ listText (frameRecord F))
  | .rxf id len data =>
    if encodeRefused id len data then none else some ("RXF".toList ++ frameOperandsText id len data)
  | .rxw w len data =>
    some ("RXW w=".toList ++ hexNumber 8 w.toNat ++ ", len=".toList ++ hexNumber 2 len.toNat ++ ", data=".toList ++
      listText (payloadBytes data))
  | .begin sa => some ("BEGIN sa=".toList ++ hexNumber 2 sa.toNat)

end Sys2Proof.Machine
end

