-- ==== Sys2Proof/Tests/Slice0.lean ====
section
/-! SUPPORT. Tests of the model against the spec's own vectors (spec/95_test_vectors.md, named TV-… below), the smoke test of WellFormed,
and a witness for the hypotheses of each statement. Every expected value is the spec's. -/

namespace Sys2Proof.Tests

open Sys2Proof.Machine Sys2Proof.Claims

/-! ### States and records of the vectors -/

/-- The configuration of the vectors: the defaults, `P_RESP_SA = 0x00` as an input. -/
def cfg0 : Config := Config.withDefaults 0x00
/-- The same in strict mode. -/
def cfgStrict : Config := { cfg0 with strictSeq := true }
/-- The reset state of the vectors. -/
def s0 : State := State.resetWith cfg0

/-- `ctrl(11, 03)` of the vectors, TV-C1. -/
def ctrlRaw : Bytes := [0x00, 0xFF, 0xEC, 0x9C, 8, 0, 0, 0, 0x20, 0x11, 0x03, 0xFF, 0xFF, 0xEC, 0xFE, 0x00]
/-- `ctrl(00, 00)`. -/
def ctrlZeroRaw : Bytes := [0x00, 0xFF, 0xEC, 0x9C, 8, 0, 0, 0, 0x20, 0x00, 0x00, 0xFF, 0xFF, 0xEC, 0xFE, 0x00]
/-- d1 of program P1. -/
def d1 : Bytes := [0x00, 0xFF, 0xEB, 0x9C, 8, 0, 0, 0, 0x01, 0x31, 0x48, 0x47, 0x43, 0x4D, 0x38, 0x32]
/-- d2 of program P1. -/
def d2 : Bytes := [0x00, 0xFF, 0xEB, 0x9C, 8, 0, 0, 0, 0x02, 0x36, 0x33, 0x33, 0x41, 0x31, 0x32, 0x33]
/-- d3 of program P1. -/
def d3 : Bytes := [0x00, 0xFF, 0xEB, 0x9C, 8, 0, 0, 0, 0x03, 0x34, 0x35, 0x36, 0xFF, 0xFF, 0xFF, 0xFF]
/-- A frame from another source address (P2 line 8). -/
def foreignRaw : Bytes := [0x17, 0xFF, 0xEB, 0x9C, 8, 0, 0, 0, 0x01, 0x58, 0x58, 0x58, 0x58, 0x58, 0x58, 0x58]

/-- The bytes `b` in `ACC` from address `a`. -/
def cellsFrom (a : Nat) : Bytes → List Host.Cell
  | [] => []
  | x :: xs => (a, x) :: cellsFrom (a + 1) xs

/-- Collecting, `TL = 17`, `EPC = 3`, the chunks in `ACC` (P1 after a BAM and its data packets). -/
def collecting (c : Config) (chunks : Bytes) : State :=
  { State.resetWith c with
    rs := .collecting, tl := 0x11, epc := 0x03, rpc := BitVec.ofNat 8 (chunks.length / 7),
    accLen := BitVec.ofNat 9 chunks.length, acc := cellsFrom 0 chunks }

/-- P1 after its BAM and d1. -/
def afterD1 : State := collecting cfg0 (d1.drop 9)
/-- P1 after d2. -/
def afterD2 : State := collecting cfg0 (d1.drop 9 ++ d2.drop 9)
/-- P1 at its end. -/
def p1End : State := { collecting cfg0 (d1.drop 9 ++ d2.drop 9 ++ d3.drop 9) with rs := .complete }
/-- P3 at its end. -/
def p3End : State :=
  { collecting cfg0 [0x57, 0x44, 0x42, 0xC3, 0xA9, 0x31, 0x32, 0x33, 0x34, 0x35, 0x36, 0x37, 0x38, 0x39] with
    rs := .complete, tl := 0x0A, epc := 0x02 }

/-- The last response's bytes, as the host reads them. -/
def answered (o : Host.Outcome State Fault Refusal) : Option Bytes :=
  (nextState o).bind fun t => t.out.getLast?.map Response.bytes

/-- The last response's bytes and the STATUS bytes after it. -/
def answeredAndStatus (o : Host.Outcome State Fault Refusal) : Option (Bytes × Option Bytes) :=
  (nextState o).bind fun t => t.out.getLast?.map fun r => (r.bytes, answered (exec .status t))

/-- The frame a raw string decodes to, for the tests. -/
def frameOf (raw : Bytes) : Frame := (decodeRecord raw).getD ⟨0, false, 0, ⟨0, 0, 0, 0, 0, 0, 0, 0⟩⟩

/-! ### WellFormed refuses each ill-formed term -/

/-- RXF with a length above 8, with nine bytes, with an identifier of 30 bits; each frame class with a frame of another class. -/
theorem test_wf_refuses :
    (Instr.rxf 0 9 []).wf cfg0 = false ∧ (Instr.rxf 0 8 (List.replicate 9 0)).wf cfg0 = false ∧
    (Instr.rxf 0x20000000 0 []).wf cfg0 = false ∧ (Instr.frameCtrl (frameOf d1)).wf cfg0 = false ∧
    (Instr.frameData (frameOf ctrlRaw)).wf cfg0 = false ∧ (Instr.frameUnm (frameOf d1)).wf cfg0 = false := by decide

theorem test_wf_accepts :
    (Instr.rxf 0x1FFFFFFF 8 (List.replicate 8 0)).wf cfg0 = true ∧ (Instr.frameCtrl (frameOf ctrlRaw)).wf cfg0 = true ∧
    (Instr.frameData (frameOf d1)).wf cfg0 = true ∧ (Instr.frameUnm (frameOf foreignRaw)).wf cfg0 = true := by decide

/-! ### Decoding: words written out from 30_encoding.md R63, R66 and R57 -/

/-- The operand bytes of TV-E1, TV-D1 (first bytes), TV-B1, P1 line 3 (first bytes). -/
theorem test_decode_commands :
    decode ⟨0x01, [0xF1, 0xF9, 0xEA, 0x18, 0x03, 0xEC, 0xFE, 0x00]⟩ =
      .instr (.encode 0x18EAF9F1 0x03 [0xEC, 0xFE, 0x00]) ∧
    decode ⟨0x02, [0x00, 0xFF, 0xEC]⟩ = .instr (.decode [0x00, 0xFF, 0xEC]) ∧
    decode ⟨0x03, [0xF1]⟩ = .instr (.buildReq 0xF1) ∧ decode ⟨0x04, [0x00, 0xFF]⟩ = .instr (.rx [0x00, 0xFF]) ∧
    decode ⟨0x05, []⟩ = .instr .readVin ∧ decode ⟨0x06, []⟩ = .instr .status ∧ decode ⟨0x07, []⟩ = .instr .reset := by decide

/-- One opcode of each reserved row, at a row's edge. -/
theorem test_decode_reserved :
    decode ⟨0x00, [1]⟩ = .instr (.reserved00 [1]) ∧ decode ⟨0x08, []⟩ = .instr (.reserved08 0 []) ∧
    decode ⟨0x1F, []⟩ = .instr (.reserved10 15 []) ∧ decode ⟨0x20, []⟩ = .instr (.reserved20 0 []) ∧
    decode ⟨0x7F, []⟩ = .instr (.reserved40 63 []) ∧ decode ⟨0x80, []⟩ = .instr (.reserved80 0 []) ∧
    decode ⟨0xFF, [1]⟩ = .instr (.reserved80 127 [1]) := by decide

/-- R67: wrong operand lengths are rejected by name. -/
theorem test_decode_rejects :
    decode ⟨0x01, [0, 0, 0, 0]⟩ = .reject (.operandLength 0x01) ∧ decode ⟨0x03, []⟩ = .reject (.operandLength 0x03) ∧
    decode ⟨0x03, [1, 2]⟩ = .reject (.operandLength 0x03) ∧ decode ⟨0x05, [0]⟩ = .reject (.operandLength 0x05) ∧
    decode ⟨0x06, [0]⟩ = .reject (.operandLength 0x06) ∧ decode ⟨0x07, [0]⟩ = .reject (.operandLength 0x07) := by decide

/-- The identifier words of the frame rows: `W & 0x00FF00FF` is `0x00EC0000`, `0x00EB0000`, or neither. TV-D1's frame is spelt out. -/
theorem test_decode_frames :
    decodeFrame cfg0 ctrlRaw =
      some (.frameCtrl ⟨0x1CECFF00, true, 8, ⟨0x20, 0x11, 0x03, 0xFF, 0xFF, 0xEC, 0xFE, 0x00⟩⟩) ∧
    decodeFrame cfg0 d1 = some (.frameData ⟨0x1CEBFF00, true, 8, ⟨0x01, 0x31, 0x48, 0x47, 0x43, 0x4D, 0x38, 0x32⟩⟩) ∧
    decodeFrame cfg0 foreignRaw =
      some (.frameUnm ⟨0x1CEBFF17, true, 8, ⟨0x01, 0x58, 0x58, 0x58, 0x58, 0x58, 0x58, 0x58⟩⟩) := by decide

/-- The expansions of R70: RXF of P1 line 3, RXW with `EXT = 0`, BEGIN of P5 line 7. -/
theorem test_encode_pseudo :
    encode (.rxf 0x1CEBFF00 8 [0x01, 0x31, 0x48, 0x47, 0x43, 0x4D, 0x38, 0x32]) = [⟨0x04, d1⟩] ∧
    encode (.rxw 0x1CECFF00 8 ⟨0x20, 0x11, 0x03, 0xFF, 0xFF, 0xEC, 0xFE, 0x00⟩) =
      [⟨0x04, [0x00, 0xFF, 0xEC, 0x1C, 8, 0, 0, 0, 0x20, 0x11, 0x03, 0xFF, 0xFF, 0xEC, 0xFE, 0x00]⟩] ∧
    encode (.begin 0xF1) = [⟨0x07, []⟩, ⟨0x03, [0xF1]⟩] := by decide

/-- The table words the host asks about decode to their rows, operand bytes zero. -/
theorem test_table_words :
    decodeTableWord 8 0x01 = some (.encode 0 0 []) ∧ decodeTableWord 8 0x03 = some (.buildReq 0) ∧
    decodeTableWord 8 0x05 = some .readVin ∧ decodeTableWord 8 0x40 = some (.reserved40 0 []) ∧
    decodeTableWord 8 0x04 = some (.rx (List.replicate 16 0)) := by decide

/-! ### One step of each instruction, from the spec's vectors -/

/-- TV-E1 and TV-E4: the flag in byte 3, and a byte beyond `len` dropped. -/
theorem test_encode :
    answered (exec (.encode 0x18EAF9F1 3 [0xEC, 0xFE, 0x00]) s0) =
      some [0x00, 0xF1, 0xF9, 0xEA, 0x98, 0x03, 0, 0, 0, 0xEC, 0xFE, 0, 0, 0, 0, 0, 0] ∧
    answered (exec (.encode 0x18FEF100 2 [0xAA, 0xBB, 0xCC]) s0) =
      some [0x00, 0x00, 0xF1, 0xFE, 0x98, 0x02, 0, 0, 0, 0xAA, 0xBB, 0, 0, 0, 0, 0, 0] := by decide

/-- TV-E8, TV-E10, TV-E11: the three causes of InvalidPayload. -/
theorem test_encode_invalid :
    answered (exec (.encode 0x20000000 0 []) s0) = some [0x01] ∧ answered (exec (.encode 0x18FEF100 9 []) s0) = some [0x01] ∧
    answered (exec (.encode 0x18FEF100 8 [0, 1, 2, 3, 4, 5, 6, 7, 8]) s0) = some [0x01] := by decide

/-- TV-D4: bits 30 and 29 dropped. TV-D5: a length of 255 passed through, the padding ignored. -/
theorem test_decode :
    answered (exec (.decode [0x00, 0xFF, 0xEC, 0xFC, 8, 0, 0, 0, 0x20, 0x11, 0x03, 0xFF, 0xFF, 0xEC, 0xFE, 0x00]) s0) =
      some [0x00, 0x00, 0xFF, 0xEC, 0x1C, 0x01, 0x08, 0x20, 0x11, 0x03, 0xFF, 0xFF, 0xEC, 0xFE, 0x00] ∧
    answered (exec (.decode [0x00, 0xF1, 0xFE, 0x98, 0xFF, 0x12, 0x34, 0x56, 1, 2, 3, 4, 5, 6, 7, 8]) s0) =
      some [0x00, 0x00, 0xF1, 0xFE, 0x18, 0x01, 0xFF, 1, 2, 3, 4, 5, 6, 7, 8] := by decide

/-- TV-D2: `ext = 0`. TV-D9 and TV-D10: 15 and 17 bytes. -/
theorem test_decode_edges :
    answered (exec (.decode [0x00, 0xFF, 0xEC, 0x1C, 8, 0, 0, 0, 0x20, 0x11, 0x03, 0xFF, 0xFF, 0xEC, 0xFE, 0x00]) s0) =
      some [0x00, 0x00, 0xFF, 0xEC, 0x1C, 0x00, 0x08, 0x20, 0x11, 0x03, 0xFF, 0xFF, 0xEC, 0xFE, 0x00] ∧
    answered (exec (.decode (List.replicate 15 0)) s0) = some [0x02] ∧
    answered (exec (.decode (List.replicate 17 0)) s0) = some [0x02] := by decide

/-- TV-B1, and TV-B6 for priority 7. -/
theorem test_build_req :
    answered (exec (.buildReq 0xF1) s0) =
      some [0x00, 0xF1, 0xF9, 0xEA, 0x98, 0x03, 0, 0, 0, 0xEC, 0xFE, 0, 0, 0, 0, 0, 0] ∧
    answered (exec (.buildReq 0xF1) { s0 with cfg := { cfg0 with reqPrio := 7 } }) =
      some [0x00, 0xF1, 0xF9, 0xEA, 0x9C, 0x03, 0, 0, 0, 0xEC, 0xFE, 0, 0, 0, 0, 0, 0] := by decide

/-- P1 lines 2 and 4: Started and Appended, with the STATUS after each. -/
theorem test_rx_p1 :
    answeredAndStatus (exec (.rx ctrlRaw) s0) = some ([0x00, 0x01], some [0x00, 0x01, 0x11, 0x03, 0x00, 0x00, 0x00]) ∧
    answeredAndStatus (exec (.rx d2) afterD1) = some ([0x00, 0x02], some [0x00, 0x01, 0x11, 0x03, 0x02, 0x0E, 0x00]) := by
  decide

/-- P1 line 5 ends in P1's end state: Completed. TV-R1: a length of zero completes on the first append. -/
theorem test_rx_completes :
    nextState (exec (.rx d3) afterD2) = some { p1End with out := [⟨.ok, [0x03]⟩] } ∧
    answeredAndStatus (exec (.rx d1) { collecting cfg0 [] with tl := 0, epc := 0 }) =
      some ([0x00, 0x03], some [0x00, 0x02, 0x00, 0x00, 0x01, 0x07, 0x00]) := by decide

/-- P1 lines 6 and 9, TV-V1: the VIN, NotComplete, and bytes above 0x7F dropped. -/
theorem test_read_vin :
    answered (exec .readVin p1End) =
      some [0x00, 0x11, 0x31, 0x48, 0x47, 0x43, 0x4D, 0x38, 0x32, 0x36, 0x33, 0x33, 0x41, 0x31, 0x32, 0x33, 0x34, 0x35, 0x36] ∧
    answered (exec .readVin s0) = some [0x03] ∧
    answered (exec .readVin p3End) = some [0x00, 0x08, 0x57, 0x44, 0x42, 0x31, 0x32, 0x33, 0x34, 0x35] := by decide

/-- TV-S1 and the STATUS of TV-R4's end, `ACC_LEN = 0x0103`. -/
theorem test_status :
    answered (exec .status s0) = some [0x00, 0x00, 0x00, 0x00, 0x00, 0x00, 0x00] ∧
    answered (exec .status { s0 with rs := .complete, tl := 0xFF, epc := 0x25, rpc := 0x25, accLen := 259 }) =
      some [0x00, 0x02, 0xFF, 0x25, 0x25, 0x03, 0x01] := by decide

/-- TV-R9 and TV-S3: RESET in the middle of Collecting. -/
theorem test_reset :
    answeredAndStatus (exec .reset afterD1) = some ([0x00], some [0x00, 0x00, 0x00, 0x00, 0x00, 0x00, 0x00]) := by decide

/-- TV-X1 to TV-X4 through a step: reserved opcodes and an empty BUILD_REQ, nothing written. -/
theorem test_illegal_commands :
    [⟨0x00, []⟩, ⟨0x08, []⟩, ⟨0xFF, [0x01]⟩, ⟨0x03, []⟩].all (fun c : Command =>
      nextState (step { afterD1 with port := [c] }) == some { afterD1 with out := [⟨.illegalCommand, []⟩] }) = true := by decide

/-- The reserved rows as instructions. -/
theorem test_reserved :
    [Instr.reserved00 [], .reserved08 1 [], .reserved10 2 [], .reserved20 3 [], .reserved40 4 [], .reserved80 5 []].all (fun i =>
      answered (exec i afterD1) == some [0x04]) = true := by decide

/-- P3 line 3: a BAM in Collecting restarts. TV-R10: Complete ignores it. -/
theorem test_frame_ctrl :
    answeredAndStatus (exec (.frameCtrl (frameOf ctrlRaw)) afterD1) =
      some ([0x00, 0x04], some [0x00, 0x01, 0x11, 0x03, 0x00, 0x00, 0x00]) ∧
    answered (exec (.frameCtrl (frameOf ctrlRaw)) p1End) = some [0x00, 0x00] := by decide

/-- P4 lines 3 and 6: strict mode ignores the duplicate and appends the next; P4 line 3 in reference mode appends the duplicate. -/
theorem test_frame_data :
    answered (exec (.frameData (frameOf d1)) (collecting cfgStrict (d1.drop 9))) = some [0x00, 0x00] ∧
    answered (exec (.frameData (frameOf d2)) (collecting cfgStrict (d1.drop 9))) = some [0x00, 0x02] ∧
    answered (exec (.frameData (frameOf d1)) afterD1) = some [0x00, 0x02] := by decide

/-- P2 line 8: a foreign source address in Collecting. -/
theorem test_frame_unm :
    nextState (exec (.frameUnm (frameOf foreignRaw)) afterD1) = some { afterD1 with out := [⟨.ok, [0x00]⟩] } := by decide

/-- P1 line 2 as RXF; an assembly error where ENCODE refuses. -/
theorem test_rxf :
    answered (exec (.rxf 0x1CECFF00 8 [0x20, 0x11, 0x03, 0xFF, 0xFF, 0xEC, 0xFE, 0x00]) s0) = some [0x00, 0x01] ∧
    nextState (exec (.rxf 0x1CECFF00 9 []) s0) = none := by decide

/-- TV-C5 as RXW: `EXT = 0` is not examined. -/
theorem test_rxw :
    answered (exec (.rxw 0x1CECFF00 8 ⟨0x20, 0x11, 0x03, 0xFF, 0xFF, 0xEC, 0xFE, 0x00⟩) s0) = some [0x00, 0x01] := by decide

/-- P5 line 7: BEGIN answers RESET's response, then TV-B1's. -/
theorem test_begin :
    (nextState (exec (.begin 0xF1) p1End)).map (fun t => (t.rs, t.out.map Response.bytes)) =
      some (.idle, [[0x00], [0x00, 0xF1, 0xF9, 0xEA, 0x98, 0x03, 0, 0, 0, 0xEC, 0xFE, 0, 0, 0, 0, 0, 0]]) := by decide

/-- TV-C2, TV-C3, TV-C7, TV-C9, TV-C10: what the classification examines and what it does not. -/
theorem test_classify :
    classify cfg0 (frameOf (ctrlRaw.set 1 0x00)) = .ctrl ∧ classify cfg0 (frameOf (ctrlRaw.set 3 0x83)) = .ctrl ∧
    classify cfg0 (frameOf (ctrlRaw.set 15 0x01)) = .unm ∧ classify cfg0 (frameOf (ctrlRaw.set 8 0x10)) = .unm ∧
    classify cfg0 (frameOf (ctrlRaw.set 0 0x17)) = .unm ∧
    classify { cfg0 with pgnMask := 0xFFFF } (frameOf ctrlRaw) = .unm ∧
    classify { cfg0 with pgnMask := 0xFFFF } (frameOf (ctrlRaw.set 1 0x00)) = .ctrl := by decide

/-- A step takes the oldest command; with none it holds the state (R125). -/
theorem test_step_order :
    (nextState (step { s0 with port := [⟨0x06, []⟩, ⟨0x07, []⟩] })).map (fun t => (t.port, t.out.length)) = some ([⟨0x07, []⟩], 1) ∧
    nextState (step s0) = some s0 := by decide

/-- R126: the successful end has the VIN without READ_VIN's count byte; the deadline RESET times out, another RESET does not. -/
theorem test_retrieval_end :
    retrievalEnd [⟨⟨0x05, []⟩, ⟨.notComplete, []⟩, false⟩, ⟨⟨0x05, []⟩, ⟨.ok, [0x01, 0x41]⟩, false⟩,
      ⟨⟨0x07, []⟩, ⟨.ok, []⟩, true⟩] = some (.successful [0x41]) ∧
    retrievalEnd [⟨rxCommand d1, ⟨.ok, [0x02]⟩, false⟩, ⟨⟨0x07, []⟩, ⟨.ok, []⟩, true⟩] = some .timedOut ∧
    retrievalEnd [⟨rxCommand d1, ⟨.ok, [0x02]⟩, false⟩, ⟨⟨0x07, []⟩, ⟨.ok, []⟩, false⟩] = none := by decide

/-! ### The assembler -/

/-- The bytes of R74's and R78's examples, P1 line 4 (RXF), and TV-C5's record as an RXW. -/
theorem test_assemble_lines :
    assembleLine "ENCODE    id=0x18EAF9F1, len=3, data=[EC FE 00]".toList =
      some [⟨0x01, [0xF1, 0xF9, 0xEA, 0x18, 0x03, 0xEC, 0xFE, 0x00]⟩] ∧
    assembleLine "BUILD_REQ sa=0xF1".toList = some [⟨0x03, [0xF1]⟩] ∧
    assembleLine "RXF id=0x1CEBFF00, len=8, data=[02 36 33 33 41 31 32 33]".toList = some [⟨0x04, d2⟩] ∧
    assembleLine "RXW w=0x1CECFF00, len=8, data=[20 11 03 FF FF EC FE 00]".toList = some [⟨0x04, ctrlRaw.set 3 0x1C⟩] := by decide

/-- P5 line 7 in a program; an RXF of nine bytes and an operand out of its range are assembly errors. -/
theorem test_assemble_program :
    assemble "BEGIN sa=0xF1\nREAD_VIN\n".toList = some [⟨0x07, []⟩, ⟨0x03, [0xF1]⟩, ⟨0x05, []⟩] ∧
    assembleLine "RXF id=0x1CEBFF00, len=8, data=[01 02 03 04 05 06 07 08 09]".toList = none ∧
    assembleLine "BUILD_REQ sa=256".toList = none := by decide

/-- R71's own text form of a frame (its braces by their codes), and R62's of a command. -/
theorem test_text_forms :
    frameText (frameOf ctrlRaw) =
      Char.ofNat 0x7B :: "id=0x1CECFF00, ext=1, len=8, p=[20 11 03 FF FF EC FE 00]".toList ++ [Char.ofNat 0x7D] ∧
    commandText ⟨0x03, [0xF1]⟩ = "03 F1".toList ∧
    (lineText (.rxw 0x1CECFF00 8 ⟨0x20, 0x11, 0x03, 0xFF, 0xFF, 0xEC, 0xFE, 0x00⟩)).bind readLine =
      some (.rxw 0x1CECFF00 8 ⟨0x20, 0x11, 0x03, 0xFF, 0xFF, 0xEC, 0xFE, 0x00⟩) := by decide

/-- R69 and R70 give these no line: an identifier of 30 bits, a length of 9, an RXF of nine bytes. An ENCODE of nine bytes has one. -/
theorem test_line_text_none :
    lineText (.encode 0x20000000 0 []) = none ∧ lineText (.encode 0 9 []) = none ∧
    lineText (.rxf 0 8 (List.replicate 9 0)) = none ∧
    (lineText (.encode 0 8 (List.replicate 9 0))).bind readLine = some (.encode 0 8 (List.replicate 9 0)) := by decide

/-! ### Witnesses: for each statement with hypotheses, a state and operands that meet them -/

/-- Parameters for the configuration of the vectors. -/
def args0 : ConfigArgs := ⟨0xEC00, 0xEB00, 0xFF00, 0x20, 0x00, 6, 0⟩

theorem witness_NewFcrHoldsResetState : State.create args0 = some s0 := by decide

/-- R10's bounds at their edges: priority 7 and strict 1 are built; priority 8, strict 2 and equal masked PGNs are not. -/
theorem witness_OnlyWellFormedConfigsAreBuilt :
    (State.create { args0 with reqPrio := 7, strictSeq := 1 }).isSome = true ∧
    State.create { args0 with reqPrio := 8 } = none ∧ State.create { args0 with strictSeq := 2 } = none ∧
    State.create { args0 with pgnMask := 0x00FF } = none := by decide

theorem witness_StepRunsTheDecodedCommand :
    s0.cfg.wf = true ∧ { s0 with port := [⟨0x06, []⟩] }.port = [⟨0x06, []⟩] ∧ decode ⟨0x06, []⟩ = .instr .status ∧
    decode ⟨0x06, [0]⟩ = .reject (.operandLength 0x06) := by decide

theorem witness_StepWithoutCommandHoldsState :
    s0.cfg.wf = true ∧ s0.port = [] ∧ { s0 with cfg := { cfg0 with pgnMask := 0 } }.cfg.wf = false := by decide

/-- The edges of the reserved ranges, with a state in which `AnswersIllegal` speaks. -/
theorem witness_ReservedOpcodesAnswerIllegalCommand :
    ((0x00 : Byte) = 0x00 ∨ 0x08 ≤ (0x00 : Byte).toNat) ∧ 0x08 ≤ (0x08 : Byte).toNat ∧ 0x08 ≤ (0xFF : Byte).toNat ∧
    { s0 with port := [⟨0x08, [1]⟩] }.cfg.wf = true ∧ { s0 with port := [⟨0x08, [1]⟩] }.port = ⟨0x08, [1]⟩ :: [] := by decide

/-- Lengths next to the ones R67 takes. -/
theorem witness_WrongOperandLengthAnswersIllegalCommand :
    ([0, 0, 0, 0] : Bytes).length < 5 ∧ ([] : Bytes).length ≠ 1 ∧ ([0, 0] : Bytes).length ≠ 1 ∧ ([0] : Bytes).length ≠ 0 ∧
    { s0 with port := [⟨0x01, [0, 0, 0, 0]⟩] }.cfg.wf = true := by decide

theorem witness_DecodeOfEncodeIsTheInstruction :
    (Instr.rxf 0x1FFFFFFF 8 (List.replicate 8 0xFF)).wf cfg0 = true ∧ (Instr.encode 0xFFFFFFFF 0xFF []).wf cfg0 = true ∧
    (Instr.encode 0xFFFFFFFF 0xFF []).isCommand = true := by decide

/-- A command of the last row of the table, one of the first, and the row's instruction. -/
theorem witness_EachOpcodeDecodesToItsTableRow :
    decode ⟨0xFF, []⟩ = .instr (.reserved80 127 []) ∧ decode ⟨0x01, [1, 2, 3, 4, 5]⟩ = .instr (.encode 0x04030201 5 []) := by decide

theorem witness_EncodeOfDecodeIsTheCommand :
    decode ⟨0x01, [1, 2, 3, 4, 5, 6]⟩ = .instr (.encode 0x04030201 5 [6]) := by decide

theorem witness_FrameInstructionsRoundTrip :
    ctrlRaw.length = 16 ∧ (Instr.frameCtrl (frameOf ctrlRaw)).wf cfg0 = true ∧ (Instr.frameData (frameOf d1)).wf cfg0 = true ∧
    (Instr.frameUnm (frameOf foreignRaw)).wf cfg0 = true := by decide

/-- The largest operands ENCODE takes, and each of the smallest it refuses. -/
theorem witness_EncodeBuildsTheRecord :
    ((List.replicate 8 0xFF : Bytes).length ≤ 8 ∧ (8 : Byte).toNat ≤ 8 ∧ (0x1FFFFFFF : BitVec 32).toNat < 2 ^ 29) ∧
    8 < (List.replicate 9 0 : Bytes).length ∧ 8 < (9 : Byte).toNat ∧ 2 ^ 29 ≤ (0x20000000 : BitVec 32).toNat ∧
    ([0, 0, 0, 0] : Bytes).length < 5 := by decide

theorem witness_DecodeReadsTheRecord :
    ctrlRaw.length = 16 ∧ (List.replicate 15 0 : Bytes).length ≠ 16 ∧ (List.replicate 17 0 : Bytes).length ≠ 16 := by decide

/-- A valid triple with a zero byte beyond `len`. -/
theorem witness_DecodingAnEncodedFrameGivesItBack :
    (0x1FFFFFFF : BitVec 32).toNat < 2 ^ 29 ∧ (3 : Byte).toNat ≤ 8 ∧ ([1, 2, 3, 0] : Bytes).length ≤ 8 ∧
    ∀ k, (3 : Byte).toNat ≤ k → k < ([1, 2, 3, 0] : Bytes).length → byteAt [1, 2, 3, 0] k = 0 := by
  refine ⟨by decide, by decide, by decide, fun k h1 h2 => ?_⟩
  have h3 : k = 3 := Nat.le_antisymm (Nat.le_of_lt_succ h2) h1
  subst h3
  rfl

/-- A record the law reproduces, and one it does not (the flag clear). -/
theorem witness_EncodingADecodedRecordGivesItBack :
    decodeRecord ctrlRaw = some (frameOf ctrlRaw) ∧ (byteAt ctrlRaw 3).getLsbD 7 = true ∧
    decodeRecord (ctrlRaw.set 3 0x1C) = some (frameOf (ctrlRaw.set 3 0x1C)) := by decide

theorem witness_BuildReqGivesTheVinRequest : ([] : Bytes).length ≠ 1 ∧ ([1, 2] : Bytes).length ≠ 1 := by decide

theorem witness_CodecCommandsArePure : s0.cfg.reqPrio = p1End.cfg.reqPrio ∧ s0 ≠ p1End := by decide

theorem witness_ReturnedRecordsAreNeverMalformed :
    (∃ r, exec (.encode 0 0 []) s0 = .next (s0.respond .ok r)) ∧ ∃ r, exec (.buildReq 0xF1) s0 = .next (s0.respond .ok r) :=
  ⟨⟨List.replicate 3 0 ++ [0x80] ++ List.replicate 12 0, nextState_eq_some (by decide)⟩, ⟨_, rfl⟩⟩

theorem witness_FrameClassesFollowTheMap :
    cfg0.wf = true ∧ classify cfg0 (frameOf ctrlRaw) = .ctrl ∧ classify cfg0 (frameOf d1) = .data ∧
    decodeRecord (wireRecord 0x9CECFF00 8 ⟨0x20, 0x11, 0x03, 0xFF, 0xFF, 0xEC, 0xFE, 0x00⟩) = some (frameOf ctrlRaw) := by decide

/-- A frame and one that differs in the destination byte, the priority, the flag, the length and bytes 3 and 4. -/
theorem witness_UnexaminedFieldsHaveNoEffect :
    let F := frameOf ctrlRaw
    let G := frameOf [0x00, 0x00, 0xEC, 0x03, 0, 0, 0, 0, 0x20, 0x11, 0x03, 0x12, 0x34, 0xEC, 0xFE, 0x00]
    F.id.extractLsb' 0 8 = G.id.extractLsb' 0 8 ∧
    F.id.extractLsb' 8 16 &&& s0.cfg.pgnMask = G.id.extractLsb' 8 16 &&& s0.cfg.pgnMask ∧ F.payload.b0 = G.payload.b0 ∧
    F.payload.b5 = G.payload.b5 ∧ F.payload.b6 = G.payload.b6 ∧ F.payload.b7 = G.payload.b7 ∧
    { G with payload := F.payload } ≠ F := by decide

theorem witness_LoopedBackRequestIsIgnored :
    afterD1.cfg = { Config.withDefaults afterD1.cfg.respSa with reqPrio := afterD1.cfg.reqPrio, strictSeq := afterD1.cfg.strictSeq } ∧
    ∃ r, exec (.buildReq 0x00) s0 = .next (s0.respond .ok r) := ⟨by decide, _, rfl⟩

/-- Each row of R88's table: CTRL and DATA in each state, accepted and not, and an unmatched frame. -/
theorem witness_RxRunsTheStateMachine :
    decodeRecord ctrlRaw = some (frameOf ctrlRaw) ∧ classify cfg0 (frameOf ctrlRaw) = .ctrl ∧
    classify cfg0 (frameOf d2) = .data ∧ classify cfg0 (frameOf foreignRaw) = .unm ∧
    s0.rs = .idle ∧ afterD1.rs = .collecting ∧ p1End.rs = .complete ∧ afterD1.accLen.toNat + 7 ≤ 259 ∧
    afterD1.cfg.strictSeq = false ∧ (collecting cfgStrict (d1.drop 9)).cfg.strictSeq = true ∧
    (frameOf d2).payload.b0.toNat = (collecting cfgStrict (d1.drop 9)).rpc.toNat + 1 ∧
    (frameOf d3).payload.b0.toNat ≠ (collecting cfgStrict (d1.drop 9)).rpc.toNat + 1 ∧
    (List.replicate 17 0 : Bytes).length ≠ 16 := by decide

theorem witness_IdleStartsOnControlPacket :
    decodeRecord ctrlRaw = some (frameOf ctrlRaw) ∧ decodeRecord d1 = some (frameOf d1) ∧ s0.rs = .idle ∧
    classify s0.cfg (frameOf ctrlRaw) = .ctrl ∧ classify s0.cfg (frameOf d1) = .data := by decide

theorem witness_CollectingRestartsOnControlPacket :
    decodeRecord ctrlRaw = some (frameOf ctrlRaw) ∧ afterD1.rs = .collecting ∧ classify afterD1.cfg (frameOf ctrlRaw) = .ctrl := by
  decide

/-- Both results, at the edge: 14 bytes of 17 go on, 21 complete; and the last append that fits. -/
theorem witness_CollectingAppendsDataPacket :
    decodeRecord d2 = some (frameOf d2) ∧ afterD1.rs = .collecting ∧ classify afterD1.cfg (frameOf d2) = .data ∧
    ((collecting cfgStrict (d1.drop 9)).cfg.strictSeq = true ∧
      (byteAt d2 8).toNat = (collecting cfgStrict (d1.drop 9)).rpc.toNat + 1) ∧
    afterD1.accLen.toNat + 7 < afterD1.tl.toNat ∧ afterD2.tl.toNat ≤ afterD2.accLen.toNat + 7 ∧
    { afterD1 with accLen := 252 }.accLen.toNat + 7 ≤ 259 := by decide

theorem witness_AppendPastTheAccumulatorStops :
    { afterD1 with accLen := 253 }.rs = .collecting ∧ { afterD1 with accLen := 253 }.cfg.strictSeq = false ∧
    259 < { afterD1 with accLen := 253 }.accLen.toNat + 7 ∧ classify afterD1.cfg (frameOf d2) = .data := by decide

theorem witness_SequenceNumberMattersOnlyInStrictMode :
    decodeRecord d3 = some (frameOf d3) ∧ classify cfgStrict (frameOf d3) = .data ∧ cfgStrict.strictSeq = true ∧
    (byteAt d3 8).toNat ≠ (collecting cfgStrict (d1.drop 9)).rpc.toNat + 1 ∧ cfg0.wf = true ∧
    classify cfg0 (frameOf d3) = .data ∧ cfg0.strictSeq = false := by decide

theorem witness_DuplicatePacketIsAppendedTwice :
    afterD1.rs = .collecting ∧ classify afterD1.cfg (frameOf d1) = .data ∧ afterD1.cfg.strictSeq = false ∧
    afterD1.accLen.toNat + 14 ≤ 259 ∧
    ∃ t, exec (.rx (frameRecord (frameOf d1))) afterD1 = .next t ∧ decide (t.rs = .collecting) = true :=
  ⟨by decide, by decide, by decide, by decide, exists_next (by decide)⟩

theorem witness_CompleteIsAbsorbing :
    p1End.rs = .complete ∧ ctrlRaw.length = 16 ∧ ∃ t, exec .reset p1End = .next t ∧ decide (t.rs ≠ .complete) = true :=
  ⟨by decide, by decide, exists_next (by decide)⟩

theorem witness_IdleIsEnteredOnlyByReset :
    p1End.rs ≠ .idle ∧ ∃ t, exec (.begin 0) p1End = .next t ∧ decide (t.rs = .idle) = true :=
  ⟨by decide, exists_next (by decide)⟩

/-- Each of the four ways a frame is ignored. -/
theorem witness_UnmatchedFrameIsIgnored :
    decodeRecord foreignRaw = some (frameOf foreignRaw) ∧ classify afterD1.cfg (frameOf foreignRaw) = .unm ∧
    decodeRecord d1 = some (frameOf d1) ∧ (s0.rs = .idle ∧ classify s0.cfg (frameOf d1) = .data) ∧ p1End.rs = .complete ∧
    ((collecting cfgStrict (d1.drop 9)).rs = .collecting ∧ classify cfgStrict (frameOf d1) = .data ∧ cfgStrict.strictSeq = true ∧
      (byteAt d1 8).toNat ≠ (collecting cfgStrict (d1.drop 9)).rpc.toNat + 1) := by decide

theorem witness_MalformedFrameWritesNothing : (List.replicate 15 0 : Bytes).length ≠ 16 := by decide

/-- An RX for each outcome. -/
theorem witness_OutcomeByteSaysWhatHappened :
    (∃ t, exec (.rx foreignRaw) s0 = .next t ∧ decide (t.out = s0.out ++ [⟨.ok, [0x00]⟩]) = true) ∧
    (∃ t, exec (.rx ctrlRaw) s0 = .next t ∧ decide (t.out = s0.out ++ [⟨.ok, [0x01]⟩]) = true) ∧
    (∃ t, exec (.rx d2) afterD1 = .next t ∧ decide (t.out = afterD1.out ++ [⟨.ok, [0x02]⟩]) = true) ∧
    (∃ t, exec (.rx d3) afterD2 = .next t ∧ decide (t.out = afterD2.out ++ [⟨.ok, [0x03]⟩]) = true) ∧
    ∃ t, exec (.rx ctrlRaw) afterD1 = .next t ∧ decide (t.out = afterD1.out ++ [⟨.ok, [0x04]⟩]) = true :=
  ⟨exists_next (by decide), exists_next (by decide), exists_next (by decide), exists_next (by decide), exists_next (by decide)⟩

theorem witness_StartAndResetEmptyTheAccumulator :
    (∃ t, exec (.frameCtrl (frameOf ctrlRaw)) afterD1 = .next t) ∧ (∃ t, exec .reset afterD1 = .next t) ∧
    (∃ t, exec (.rx ctrlRaw) afterD1 = .next t ∧ decide (t.rs = .collecting) = true) ∧ afterD1.rs ≠ .complete ∧
    decodeRecord ctrlRaw = some (frameOf ctrlRaw) ∧ classify afterD1.cfg (frameOf ctrlRaw) = .ctrl ∧
    ∃ t, exec (.begin 0) afterD1 = .next t :=
  ⟨⟨_, rfl⟩, ⟨_, rfl⟩, exists_next (by decide), by decide, by decide, by decide, ⟨_, rfl⟩⟩

theorem witness_ReadVinReturnsTheVin :
    p1End.rs = .complete ∧ (List.range (min p1End.tl.toNat 17)).all (fun j => (cellGet p1End.acc j).isSome) = true ∧
    s0.rs ≠ .complete ∧ ([0] : Bytes) ≠ [] := by decide

theorem witness_ReadVinStopsOnValuelessByte :
    { p1End with acc := [] }.rs = .complete ∧ 0 < min { p1End with acc := [] }.tl.toNat 17 ∧
    cellGet { p1End with acc := [] }.acc 0 = none := by decide

theorem witness_ReadVinMayBeRepeated :
    (∃ t, exec .readVin p1End = .next t ∧ decide (t.out.length = 1) = true) ∧
    ∃ t, exec .readVin s0 = .next t ∧ decide (t.out.length = 1) = true :=
  ⟨exists_next (by decide), exists_next (by decide)⟩

theorem witness_StatusReadsOutTheState : s0.rs = .idle ∧ afterD1.rs = .collecting ∧ p1End.rs = .complete ∧ ([0] : Bytes) ≠ [] := by
  decide

theorem witness_ResetRestoresTheResetState : ([0] : Bytes) ≠ [] := by decide

theorem witness_ResetErasesThePast :
    p1End.cfg = afterD1.cfg ∧ p1End.cfg.wf = true ∧
    (∃ t, drive [⟨0x07, []⟩, ⟨0x06, []⟩] p1End = .next t ∧ decide (t.out.length = 2) = true) ∧
    ∃ t, drive [⟨0x07, []⟩, ⟨0x06, []⟩] afterD1 = .next t ∧ decide (t.out.length = 2) = true :=
  ⟨by decide, by decide, exists_next (by decide), exists_next (by decide)⟩

theorem witness_FrameInstructionsRunTheStateMachine :
    classify s0.cfg (frameOf ctrlRaw) = .ctrl ∧ classify afterD1.cfg (frameOf d2) = .data ∧
    classify afterD1.cfg (frameOf foreignRaw) = .unm ∧ s0.rs = .idle ∧ afterD1.rs = .collecting ∧ p1End.rs = .complete ∧
    afterD1.cfg.strictSeq = false ∧ afterD1.accLen.toNat + 7 ≤ 259 := by decide

theorem witness_RxIsTheFrameInstruction : decodeFrame s0.cfg d1 = some (.frameData (frameOf d1)) := by decide

/-- RXF at the largest operands; the frames of RXF and RXW that start a retrieval. -/
theorem witness_PseudoCommandsHaveTheirEffect :
    (List.replicate 8 0xFF : Bytes).length ≤ 8 ∧ (8 : Byte).toNat ≤ 8 ∧ (0x1FFFFFFF : BitVec 32).toNat < 2 ^ 29 ∧
    classify s0.cfg ⟨(0x1CECFF00 : BitVec 32).setWidth 29, true, 8, ⟨0x20, 0x11, 0x03, 0xFF, 0xFF, 0xEC, 0xFE, 0x00⟩⟩ = .ctrl ∧
    classify s0.cfg ⟨(0x1CEBFF00 : BitVec 32).extractLsb' 0 29, false, 8, ⟨1, 2, 3, 4, 5, 6, 7, 8⟩⟩ = .data ∧
    s0.rs = .idle ∧ afterD1.rs = .collecting := by decide

theorem witness_ExpansionHasTheSameEffect :
    (Instr.rxf 0x1CEBFF00 8 (d1.drop 8)).wf s0.cfg = true ∧ (Instr.frameData (frameOf d1)).wf s0.cfg = true ∧
    (Instr.begin 0).wf s0.cfg = true := by decide

/-- A step for each error status. -/
theorem witness_ErrorsArePrecise :
    ∃ t, step { afterD1 with port := [⟨0x05, []⟩] } = .next t ∧
      decide (t.out = { afterD1 with port := [⟨0x05, []⟩] }.out ++ [⟨.notComplete, []⟩]) = true := exists_next (by decide)

theorem witness_EachCommandIsAnsweredOnce :
    ∃ t, step { afterD1 with port := [rxCommand d2, ⟨0x06, []⟩] } = .next t ∧ decide (t.port = [⟨0x06, []⟩]) = true :=
  exists_next (by decide)

/-- A step for each cause of each error status, and one that answers OK. -/
theorem witness_StatusesHaveTheirCauses :
    [((⟨0x08, []⟩ : Command), Status.illegalCommand), (⟨0x00, []⟩, .illegalCommand), (⟨0x01, [0, 0, 0, 0]⟩, .illegalCommand),
      (⟨0x03, []⟩, .illegalCommand), (⟨0x07, [0]⟩, .illegalCommand), (⟨0x01, [0, 0, 0, 0x20, 0]⟩, .invalidPayload),
      (⟨0x01, [0, 0, 0, 0, 9]⟩, .invalidPayload), (⟨0x01, List.replicate 14 0⟩, .invalidPayload),
      (⟨0x01, List.replicate 13 0⟩, .ok), (⟨0x02, []⟩, .malformedFrame), (⟨0x04, List.replicate 17 0⟩, .malformedFrame),
      (⟨0x05, []⟩, .notComplete), (⟨0x06, []⟩, .ok)].all (fun p =>
        (nextState (step { afterD1 with port := [p.1] })).map (fun t => t.out.map Response.status) == some [p.2]) = true := by
  decide

theorem witness_ResponseBytesFollowTheStatus :
    ∃ t, step { afterD1 with port := [⟨0x05, []⟩] } = .next t ∧ decide (t.out.map Response.bytes = [[0x03]]) = true :=
  exists_next (by decide)

theorem witness_OnlyFramesAndResetsWriteState :
    (∃ t, exec .status afterD1 = .next t) ∧ ∃ t, exec (.rx d2) afterD1 = .next t ∧ decide (t.rpc = 2) = true :=
  ⟨⟨_, rfl⟩, exists_next (by decide)⟩

theorem witness_InvariantHoldsAtReset : State.create args0 = some s0 := by decide

/-- States with the invariant in each phase, one of them the zero-length corner, and a step from each. -/
theorem witness_StepKeepsTheInvariant :
    Invariant s0 ∧ Invariant afterD1 ∧ Invariant p1End ∧ Invariant { collecting cfg0 [] with tl := 0 } ∧
    ∃ t, step { afterD1 with port := [rxCommand d2] } = .next t ∧ decide (t.rpc = 2) = true :=
  ⟨by decide, by decide, by decide, by decide, exists_next (by decide)⟩

theorem witness_NoCommandStopsAReachableFcr : Invariant { p1End with port := [⟨0x05, []⟩] } := by decide

/-- The hypotheses are met by ordinary states too, not only by the one that refutes the rule. -/
theorem witness_RuleThirtyOneAsWrittenIsKept :
    Invariant { afterD2 with port := [rxCommand d3] } ∧ Rule31 { afterD2 with port := [rxCommand d3] } ∧
    ∃ t, step { afterD2 with port := [rxCommand d3] } = .next t ∧ decide (t.rs = .complete) = true :=
  ⟨by decide, by decide, exists_next (by decide)⟩

theorem witness_RetrievalCompletesOnTheAnnouncedPacket :
    Invariant (collecting cfg0 []) ∧ (collecting cfg0 []).rs = .collecting ∧ (collecting cfg0 []).rpc = 0 ∧
    (collecting cfg0 []).cfg.strictSeq = false ∧ ∀ raw ∈ [d1, d2, d3], ∃ D, matched (collecting cfg0 []).cfg raw = some (.data, D) := by
  refine ⟨by decide, by decide, by decide, by decide, fun raw h => ?_⟩
  rcases List.mem_cons.1 h with rfl | h
  · exact ⟨frameOf d1, by decide⟩
  rcases List.mem_cons.1 h with rfl | h
  · exact ⟨frameOf d2, by decide⟩
  rcases List.mem_cons.1 h with rfl | h
  · exact ⟨frameOf d3, by decide⟩
  · cases h

theorem witness_ForeignFramesLeaveNoTrace : Invariant afterD1 := by decide

/-- Program P1 in noise, in both modes. -/
theorem witness_RetrievalReturnsTheAnnouncedVin :
    [cfg0, cfgStrict].all (fun c => c.wf &&
      [d1, foreignRaw, ctrlRaw, [], d1, d2, foreignRaw, d3, ctrlRaw].filterMap (matched c) ==
        [frameOf d1].map (Prod.mk .data) ++ (.ctrl, frameOf ctrlRaw) :: [frameOf d1, frameOf d2, frameOf d3].map (Prod.mk .data) ++
          [(.ctrl, frameOf ctrlRaw)]) = true ∧
    [frameOf d1, frameOf d2, frameOf d3].length = packetsNeeded (totalLength (frameOf ctrlRaw)).toNat ∧
    [frameOf d1, frameOf d2, frameOf d3].map (fun D => (sequenceNumber D).toNat) = [1, 2, 3] := by decide

/-- Two FCRs with the invariant; one FCR whose step faults and one whose step is refused. -/
theorem witness_FcrsAreIndependent :
    (∀ s ∈ [{ s0 with port := [⟨0x06, []⟩] }, { afterD1 with port := [⟨0x07, []⟩] }], Invariant s) ∧
    step { p1End with acc := [], port := [⟨0x05, []⟩] } = .fault .accNoValue ∧
    step { s0 with cfg := { cfg0 with pgnMask := 0 } } = .refused .illFormedConfig ∧
    (0 : Nat) ≠ 1 ∧ ∃ sys1 sys2, stepAt 0 [{ s0 with port := [⟨0x06, []⟩] }, { afterD1 with port := [⟨0x07, []⟩] }] = .next sys1 ∧
      stepAt 1 sys1 = .next sys2 := ⟨by decide, rfl, rfl, by decide, _, _, rfl, rfl⟩

end Sys2Proof.Tests
end

section
/-! PROOFS. Which configurations an FCR is built from (00_scope.md R10). -/

namespace Sys2Proof

theorem Config.build_eq_none_iff (a : ConfigArgs) :
    Config.build a = none ↔
      a.tpcmPgn &&& a.pgnMask = a.tpdtPgn &&& a.pgnMask ∨ 7 < a.reqPrio ∨ 1 < a.strictSeq := by
  simp only [Config.build, ite_eq_right_iff, reduceCtorEq, imp_false, not_and_or, bne_iff_ne, ne_eq, not_not, not_le]

theorem Config.wf_of_build_eq_some {a : ConfigArgs} {c : Config} (h : Config.build a = some c) : c.wf = true := by
  obtain ⟨⟨hpgn, -, -⟩, hc⟩ := Option.ite_none_right_eq_some.1 h
  cases hc
  exact hpgn

/-- R10's bound on the priority is what makes the three bits of `reqPrio` hold the number asked for. -/
theorem Config.build_keeps_args {a : ConfigArgs} {c : Config} (h : Config.build a = some c) :
    c.tpcmPgn = a.tpcmPgn ∧ c.tpdtPgn = a.tpdtPgn ∧ c.pgnMask = a.pgnMask ∧ c.bamCode = a.bamCode ∧
      c.respSa = a.respSa ∧ c.reqPrio.toNat = a.reqPrio ∧ (c.strictSeq = true ↔ a.strictSeq = 1) := by
  obtain ⟨⟨-, hprio, -⟩, hc⟩ := Option.ite_none_right_eq_some.1 h
  cases hc
  exact ⟨rfl, rfl, rfl, rfl, rfl, Nat.mod_eq_of_lt (Nat.lt_succ_of_le hprio), beq_iff_eq⟩

namespace Machine

theorem State.create_eq_none_iff (a : ConfigArgs) : State.create a = none ↔ Config.build a = none :=
  Option.map_eq_none_iff

theorem State.create_eq_some_iff {a : ConfigArgs} {s : State} :
    State.create a = some s ↔ ∃ c, Config.build a = some c ∧ State.resetWith c = s :=
  Option.map_eq_some_iff

/-- Settles O2: `State.create` answers exactly where `Config.build` does, and the instance holds the configuration built. -/
theorem onlyWellFormedConfigsAreBuilt : Obligations.OnlyWellFormedConfigsAreBuilt := by
  refine ⟨fun a => (State.create_eq_none_iff a).trans (Config.build_eq_none_iff a), fun a s hs => ?_⟩
  obtain ⟨c, hc, rfl⟩ := State.create_eq_some_iff.1 hs
  exact ⟨Config.wf_of_build_eq_some hc, Config.build_keeps_args hc⟩

end Machine

end Sys2Proof
end

section
/-! PROOFS. What a step, the decoder and single instructions can answer, beyond the laws of Sys2Proof/Laws/Ops.lean. -/

namespace Sys2Proof.Machine

/-- Everything a step that answers can be: idling, an executed command, or a rejected one. -/
theorem step_cases {s t : State} (h : step s = .next t) :
    s.cfg.wf = true ∧
      ((s.port = [] ∧ t = s) ∨
        ∃ c rest, s.port = c :: rest ∧
          ((∃ i, decode c = .instr i ∧ exec i { s with port := rest } = .next t) ∨
            (∃ r, decode c = .reject r) ∧ t = { s with port := rest }.respond .illegalCommand [])) := by
  by_cases hw : s.cfg.wf = true
  · refine ⟨hw, ?_⟩
    cases hp : s.port with
    | nil =>
      rw [step_nil hw hp] at h
      cases h
      exact .inl ⟨rfl, rfl⟩
    | cons c rest =>
      rw [step_cons hw hp] at h
      refine .inr ⟨c, rest, rfl, ?_⟩
      cases hd : decode c with
      | instr i =>
        rw [hd] at h
        exact .inl ⟨i, rfl, h⟩
      | reject r =>
        rw [hd] at h
        cases h
        exact .inr ⟨⟨r, rfl⟩, rfl⟩
  · rw [step, if_neg hw] at h
    cases h

/-! ### The decoder -/

theorem decodeReserved_isCommand (op : Byte) (opd : Bytes) : (decodeReserved op opd).isCommand = true := by
  unfold decodeReserved
  split_ifs <;> rfl

theorem decodeNoOperand_eq_instr {op : Byte} {i j : Instr} {opd : Bytes} (h : decodeNoOperand op i opd = .instr j) : j = i := by
  unfold decodeNoOperand at h
  split at h <;> cases h
  rfl

/-- The block never sees a frame class or a pseudo-command as a command (30_encoding.md R70). -/
theorem decode_isCommand {c : Command} {i : Instr} (h : decode c = .instr i) : i.isCommand = true := by
  unfold decode at h
  split_ifs at h
  · unfold decodeEncode at h
    split at h <;> cases h
    rfl
  · cases h; rfl
  · unfold decodeBuildReq at h
    split at h <;> cases h
    rfl
  · cases h; rfl
  · rw [decodeNoOperand_eq_instr h]; rfl
  · rw [decodeNoOperand_eq_instr h]; rfl
  · rw [decodeNoOperand_eq_instr h]; rfl
  · cases h; exact decodeReserved_isCommand _ _

/-! ### Instructions that only answer -/

/-- ENCODE answers in every state and writes no element of it (40_codec.md R72). -/
theorem exec_encode_responds (id : BitVec 32) (len : Byte) (pl : Bytes) (s : State) :
    ∃ st r, exec (.encode id len pl) s = .next (s.respond st r) := by
  simp only [exec, execEncode]
  split <;> exact ⟨_, _, rfl⟩

/-- DECODE answers in every state and writes no element of it (R72). -/
theorem exec_decode_responds (raw : Bytes) (s : State) : ∃ st r, exec (.decode raw) s = .next (s.respond st r) := by
  simp only [exec, execDecode]
  split <;> exact ⟨_, _, rfl⟩

theorem exec_readVin_of_ne_complete {s : State} (hr : s.rs ≠ .complete) :
    exec .readVin s = .next (s.respond .notComplete []) := by
  simp only [exec, execReadVin]
  split
  · rfl
  · rfl
  · next hc => exact absurd hc hr

theorem exec_readVin_of_vinBytes_eq_some {s : State} {b : Bytes} (hr : s.rs = .complete) (hv : vinBytes s = some b) :
    exec .readVin s = .next (s.respond .ok (BitVec.ofNat 8 (vinDecode b).length :: vinDecode b)) := by
  simp only [exec, execReadVin, hr, hv, answer_eq]

theorem exec_readVin_of_vinBytes_eq_none {s : State} (hr : s.rs = .complete) (hv : vinBytes s = none) :
    exec .readVin s = .fault .accNoValue := by
  simp only [exec, execReadVin, hr, hv]

/-- READ_VIN writes no element of the state (20_memory.md R45). -/
theorem exec_readVin_cases {s t : State} (h : exec .readVin s = .next t) : ∃ st r, t = s.respond st r := by
  by_cases hr : s.rs = .complete
  · cases hv : vinBytes s with
    | some b =>
      rw [exec_readVin_of_vinBytes_eq_some hr hv] at h
      cases h
      exact ⟨_, _, rfl⟩
    | none =>
      rw [exec_readVin_of_vinBytes_eq_none hr hv] at h
      cases h
  · rw [exec_readVin_of_ne_complete hr] at h
    cases h
    exact ⟨_, _, rfl⟩

theorem vinBytes_eq_none_of_valueless {s : State} {j : Nat} (hj : j < min s.tl.toNat 17) (hg : cellGet s.acc j = none) :
    vinBytes s = none := by
  cases hv : vinBytes s with
  | none => rfl
  | some b =>
    obtain ⟨-, hb⟩ := cellsRead_eq_some hv
    have hvalue := hb j hj
    rw [Nat.zero_add, hg] at hvalue
    cases hvalue

/-! ### The reassembler's moves -/

theorem receive_of_classify_ctrl {s : State} {F : Frame} (hc : classify s.cfg F = .ctrl) : receive s F = receiveCtrl s F := by
  simp only [receive, hc]

theorem exists_receiveCtrl (s : State) (F : Frame) : ∃ t, receiveCtrl s F = .next t := by
  unfold receiveCtrl
  split <;> exact ⟨_, rfl⟩

/-- Outside Complete a CTRL frame is accepted: it starts or restarts (R89, R90). -/
theorem acc_eq_nil_of_receiveCtrl {s t : State} {F : Frame} (hr : s.rs ≠ .complete) (h : receiveCtrl s F = .next t) :
    t.acc = [] := by
  unfold receiveCtrl at h
  split at h
  · cases h; rfl
  · cases h; rfl
  · next hc => exact absurd hc hr

theorem append_rs_ne_idle (s : State) (F : Frame) : (s.append F).rs ≠ .idle := by
  rw [State.append_rs]
  split <;> simp

theorem append_rs_eq_complete_iff (s : State) (F : Frame) :
    (s.append F).rs = .complete ↔ s.tl.toNat ≤ (s.accLen + 7).toNat := by
  rw [State.append_rs, ← completes_iff]
  cases completes (s.accLen + 7) s.tl <;> simp

theorem receive_rs_ne_idle {s t : State} {F : Frame} (h : receive s F = .next t) (hs : s.rs ≠ .idle) : t.rs ≠ .idle := by
  rcases receive_cases h with rfl | ⟨-, hr, -⟩ | ⟨-, -, rfl⟩ | ⟨-, -, -, -, rfl⟩
  · exact hs
  · exact absurd hr hs
  · simp
  · exact append_rs_ne_idle s F

theorem receiveRaw_rs_ne_idle {s t : State} {raw : Bytes} (h : receiveRaw s raw = .next t) (hs : s.rs ≠ .idle) :
    t.rs ≠ .idle := by
  rcases receiveRaw_cases h with ⟨-, rfl⟩ | ⟨F, -, hF⟩
  · exact hs
  · exact receive_rs_ne_idle hF hs

theorem receiveCtrl_rs_ne_idle {s t : State} {F : Frame} (h : receiveCtrl s F = .next t) (hs : s.rs ≠ .idle) : t.rs ≠ .idle := by
  rcases receiveCtrl_cases h with rfl | ⟨o, -, rfl⟩
  · exact hs
  · simp

theorem receiveData_rs_ne_idle {s t : State} {F : Frame} (h : receiveData s F = .next t) (hs : s.rs ≠ .idle) : t.rs ≠ .idle := by
  rcases receiveData_cases h with rfl | ⟨-, -, o, rfl⟩
  · exact hs
  · exact append_rs_ne_idle s F

end Sys2Proof.Machine
end

section
/-! PROOFS. The phases and the accumulator, instruction by instruction (10_state.md R26, R31, R33). -/

namespace Sys2Proof.Machine

/-- Settles O31: frames move Idle to Collecting and Collecting to Complete only, and the other instructions write no phase. -/
theorem idleIsEnteredOnlyByReset : Obligations.IdleIsEnteredOnlyByReset := by
  intro s t i h hs ht
  cases i with
  | reset => exact .inl rfl
  | begin sa => exact .inr ⟨sa, rfl⟩
  | rx raw => exact absurd ht (receiveRaw_rs_ne_idle h hs)
  | rxw w len data =>
    rw [exec_rxw] at h
    exact absurd ht (receiveRaw_rs_ne_idle h hs)
  | rxf id len data =>
    rw [exec_rxf] at h
    split at h
    · exact absurd ht (receiveRaw_rs_ne_idle h hs)
    · cases h
  | frameCtrl F => exact absurd ht (receiveCtrl_rs_ne_idle h hs)
  | frameData F => exact absurd ht (receiveData_rs_ne_idle h hs)
  | encode id len pl =>
    obtain ⟨st, r, he⟩ := exec_encode_responds id len pl s
    rw [he] at h
    cases h
    exact absurd ht hs
  | decode raw =>
    obtain ⟨st, r, he⟩ := exec_decode_responds raw s
    rw [he] at h
    cases h
    exact absurd ht hs
  | readVin =>
    obtain ⟨st, r, rfl⟩ := exec_readVin_cases h
    exact absurd ht hs
  | buildReq | status | reserved00 | reserved08 | reserved10 | reserved20 | reserved40 | reserved80 | frameUnm =>
    cases h
    exact absurd ht hs

/-- Settles O35: `start` and `clear` are the only moves these instructions can make, and both empty `ACC` (log 9). -/
theorem startAndResetEmptyTheAccumulator : Obligations.StartAndResetEmptyTheAccumulator := by
  intro s t i h hi a
  have hacc : t.acc = [] := by
    rcases hi with ⟨F, rfl, hr⟩ | ⟨raw, F, rfl, hd, hc, hr⟩ | rfl | ⟨sa, rfl⟩
    · exact acc_eq_nil_of_receiveCtrl hr h
    · rw [exec_rx, receiveRaw_of_decode hd, receive_of_classify_ctrl hc] at h
      exact acc_eq_nil_of_receiveCtrl hr h
    · cases h; rfl
    · cases h; rfl
  rw [hacc]
  rfl

/-- Settles O37: the byte without a value makes the whole read none (log 8). -/
theorem readVinStopsOnValuelessByte : Obligations.ReadVinStopsOnValuelessByte := by
  rintro s hr ⟨j, hj, hg⟩
  exact exec_readVin_of_vinBytes_eq_none hr (vinBytes_eq_none_of_valueless hj hg)

end Sys2Proof.Machine
end

section
/-! PROOFS. The invariant of a reachable FCR (10_state.md R26, R29, R31): what an empty accumulator gives, what an append keeps, that every
step keeps it, and where R31 word for word is not kept. -/

namespace Sys2Proof.Machine

theorem Invariant.cfg_wf {s : State} (h : Invariant s) : s.cfg.wf = true := h.1

/-- The invariant speaks of neither queue, so a response keeps it. -/
theorem Invariant.respond {s : State} (h : Invariant s) (st : Status) (r : Bytes) : Invariant (s.respond st r) := h

theorem Invariant.set_port {s : State} (h : Invariant s) (cs : List Command) : Invariant { s with port := cs } := h

/-- With nothing received the invariant asks for no more than R33's zeros in Idle. -/
theorem invariant_of_acc_eq_nil {s : State} (hcfg : s.cfg.wf = true) (hacc : s.acc = []) (hlen : s.accLen = 0) (hrpc : s.rpc = 0)
    (hcomplete : s.rs ≠ .complete) (hidle : s.rs = .idle → s.tl = 0 ∧ s.epc = 0) : Invariant s := by
  refine ⟨hcfg, ?_, ?_, ?_, ?_, fun hr => ?_, fun _ => .inl hrpc, fun hr => absurd hr hcomplete⟩
  · rw [hacc]; exact accWf_nil
  · rw [hacc, hlen]; rfl
  · rw [hlen, hrpc]; rfl
  · rw [hrpc]; decide
  · obtain ⟨htl, hepc⟩ := hidle hr
    exact ⟨htl, hepc, hrpc, hlen⟩

theorem invariant_resetWith {c : Config} (hc : c.wf = true) : Invariant (State.resetWith c) :=
  invariant_of_acc_eq_nil hc rfl rfl rfl (by simp) fun _ => ⟨rfl, rfl⟩

theorem Invariant.clear {s : State} (h : Invariant s) : Invariant s.clear :=
  invariant_of_acc_eq_nil h.cfg_wf rfl rfl rfl (by simp) fun _ => ⟨rfl, rfl⟩

theorem Invariant.start {s : State} (h : Invariant s) (F : Frame) : Invariant (s.start F) :=
  invariant_of_acc_eq_nil h.cfg_wf rfl rfl rfl (by simp) (by simp)

theorem Invariant.accLen_eq_zero {s : State} (h : Invariant s) (h0 : s.rpc = 0) : s.accLen.toNat = 0 := by
  obtain ⟨-, -, -, hlen, -, -⟩ := h
  rw [hlen, h0]
  rfl

/-- Collecting always has room for one more chunk: `ACC_LEN` is a multiple of 7 and below `TL <= 255` (R29). -/
theorem Invariant.room {s : State} (h : Invariant s) (hr : s.rs = .collecting) : s.accLen.toNat + 7 ≤ 259 := by
  have hempty := h.accLen_eq_zero
  obtain ⟨-, -, -, hlen, -, -, hcollecting, -⟩ := h
  rcases hcollecting hr with h0 | hlt
  · have := hempty h0
    omega
  · have := s.tl.isLt
    omega

/-- R92: an append that reaches `TL` is the first that does, because Collecting has `ACC_LEN < TL` after its first append (R31). -/
theorem phaseInv_append {s : State} (F : Frame) (hlen : (s.append F).accLen.toNat = s.accLen.toNat + 7)
    (hrpc : (s.append F).rpc.toNat = s.rpc.toNat + 1) (hempty : s.rpc = 0 → s.accLen.toNat = 0)
    (hcollecting : s.rpc = 0 ∨ s.accLen.toNat < s.tl.toNat) : PhaseInv (s.append F) := by
  have hcomplete := append_rs_eq_complete_iff s F
  rw [← State.append_accLen s F, hlen] at hcomplete
  refine ⟨fun hr => absurd hr (append_rs_ne_idle s F), fun hr => .inr ?_, fun hr => ?_⟩
  · rw [hlen, State.append_tl, ← not_le, ← hcomplete, hr]
    simp
  · rw [hlen, State.append_tl]
    refine ⟨by omega, hcomplete.1 hr, fun htl => ?_, fun htl => ?_⟩
    · have : s.tl.toNat ≠ 0 := fun h0 => htl (BitVec.eq_of_toNat_eq h0)
      rcases hcollecting with h0 | hlt
      · have := hempty h0
        omega
      · omega
    · rcases hcollecting with h0 | hlt
      · rw [State.append_rpc, h0]; rfl
      · rw [htl] at hlt; exact absurd hlt (Nat.not_lt_zero _)

theorem Invariant.append {s : State} (h : Invariant s) (hr : s.rs = .collecting) (F : Frame) : Invariant (s.append F) := by
  have hroom := h.room hr
  have hempty := h.accLen_eq_zero
  obtain ⟨hcfg, hacc, hkeys, hlen, -, -, hcollecting, -⟩ := h
  have hlen' : (s.append F).accLen.toNat = s.accLen.toNat + 7 := accLen_add_seven hroom
  have hrpc' : (s.append F).rpc.toNat = s.rpc.toNat + 1 := by
    rw [State.append_rpc, BitVec.toNat_add]
    exact Nat.mod_eq_of_lt (show s.rpc.toNat + 1 < 256 by omega)
  refine ⟨hcfg, cellsWrite_wf _ _ _ hacc hroom, ?_, by omega, by omega, ?_⟩
  · rw [hlen']
    exact keys_cellsWrite _ _ (chunk F) hkeys
  · exact phaseInv_append F hlen' hrpc' hempty (hcollecting hr)

/-- The invariant is kept by every instruction, frame instructions and pseudo-commands included. -/
theorem exec_keeps_invariant {i : Instr} {s t : State} (h : Invariant s) (hx : exec i s = .next t) : Invariant t := by
  rcases exec_cases hx with ⟨st, r, rfl⟩ | ⟨F, o, -, rfl⟩ | ⟨F, o, hr, -, rfl⟩ | rfl | ⟨r, rfl⟩
  · exact h.respond st r
  · exact (h.start F).respond _ _
  · exact (h.append hr F).respond _ _
  · exact h.clear.respond _ _
  · exact (h.clear.respond _ _).respond _ _

theorem step_keeps_invariant {s t : State} (h : Invariant s) (hs : step s = .next t) : Invariant t := by
  obtain ⟨-, ⟨-, rfl⟩ | ⟨c, rest, -, ⟨i, -, hx⟩ | ⟨-, rfl⟩⟩⟩ := step_cases hs
  · exact h
  · exact exec_keeps_invariant (h.set_port rest) hx
  · exact (h.set_port rest).respond _ _

/-- Settles O54: a step idles, executes a command or rejects one. With `TL = 0` the append of R92 that completes is the first, which
is what the invariant says there (log 18). -/
theorem stepKeepsTheInvariant : Obligations.StepKeepsTheInvariant := fun _ _ => step_keeps_invariant

/-- Settles O53: the reset state has received nothing, and the defaults of R7 meet R10 whatever the responder address. -/
theorem invariantHoldsAtReset : Obligations.InvariantHoldsAtReset := by
  refine ⟨invariant_resetWith rfl, fun a s hs => ?_⟩
  obtain ⟨c, hc, rfl⟩ := State.create_eq_some_iff.1 hs
  exact invariant_resetWith (Config.wf_of_build_eq_some hc)

/-! ### R31 word for word -/

/-- A DataPacket of the default configuration with responder address 0 (30_encoding.md R55). -/
def zeroLengthPacket : Bytes := [0x00, 0xFF, 0xEB, 0x9C, 8, 0, 0, 0, 1, 0x31, 0x48, 0x47, 0x43, 0x4D, 0x38, 0x32]

/-- Vector TV-R1 after its announcement of length zero, the first DataPacket presented. -/
def zeroLengthRetrieval : State :=
  { State.resetWith (Config.withDefaults 0) with rs := .collecting, port := [rxCommand zeroLengthPacket] }

/-- R92: the first packet completes a retrieval of length zero, and one chunk stays in `ACC`. -/
theorem step_zeroLengthRetrieval :
    ∃ t, step zeroLengthRetrieval = .next t ∧ t.rs = .complete ∧ t.tl = 0 ∧ t.accLen = 7 := by
  obtain ⟨t, ht, hp⟩ := exists_next (o := step zeroLengthRetrieval)
    (p := fun t => decide (t.rs = .complete ∧ t.tl = 0 ∧ t.accLen = 7)) (by decide)
  exact ⟨t, ht, of_decide_eq_true hp⟩

/-- Refutes O56: in `zeroLengthRetrieval` the step completes with `ACC_LEN = 7` and `TL = 0`, where R31 asks `7 - 7 < 0` (log 18). -/
theorem not_ruleThirtyOneAsWrittenIsKept : ¬ Obligations.RuleThirtyOneAsWrittenIsKept := by
  intro h
  obtain ⟨t, ht, hr, htl, hlen⟩ := step_zeroLengthRetrieval
  obtain ⟨-, -, hcomplete⟩ := h zeroLengthRetrieval t (by decide) (by decide) ht
  obtain ⟨-, -, -, hbound⟩ := hcomplete hr
  rw [htl, hlen] at hbound
  exact absurd hbound (by decide)

end Sys2Proof.Machine
end

section
/-! PROOFS. No step stops an FCR with the invariant (60_exceptions.md R112), and several FCRs side by side (10_state.md R34, R122). -/

namespace Sys2Proof.Machine

/-- R26: in Complete the bytes READ_VIN reads are below `TL <= ACC_LEN`, so each has a value. -/
theorem Invariant.exists_vinBytes {s : State} (h : Invariant s) (hr : s.rs = .complete) : ∃ b, vinBytes s = some b := by
  obtain ⟨-, -, hkeys, -, -, -, -, hcomplete⟩ := h
  obtain ⟨-, htl, -, -⟩ := hcomplete hr
  refine cellsRead_isSome _ _ _ fun j hj => ?_
  rw [cellGet_isSome_iff, hkeys, List.mem_range]
  omega

theorem Invariant.exists_receiveData {s : State} (h : Invariant s) (F : Frame) : ∃ t, receiveData s F = .next t := by
  unfold receiveData
  split
  · exact ⟨_, rfl⟩
  · next hr =>
    split_ifs
    · exact ⟨_, appendFrame_eq_next_iff.2 ⟨h.room hr, rfl⟩⟩
    · exact ⟨_, rfl⟩
  · exact ⟨_, rfl⟩

theorem Invariant.exists_receiveRaw {s : State} (h : Invariant s) (raw : Bytes) : ∃ t, receiveRaw s raw = .next t := by
  unfold receiveRaw receive
  split
  · exact ⟨_, rfl⟩
  · split
    · exact exists_receiveCtrl s _
    · exact h.exists_receiveData _
    · exact ⟨_, rfl⟩

theorem Invariant.exists_exec {s : State} (h : Invariant s) {i : Instr} (hi : i.isCommand = true) : ∃ t, exec i s = .next t := by
  cases i with
  | rx raw => exact h.exists_receiveRaw raw
  | readVin =>
    by_cases hr : s.rs = .complete
    · obtain ⟨b, hv⟩ := h.exists_vinBytes hr
      exact ⟨_, exec_readVin_of_vinBytes_eq_some hr hv⟩
    · exact ⟨_, exec_readVin_of_ne_complete hr⟩
  | encode id len pl =>
    obtain ⟨st, r, he⟩ := exec_encode_responds id len pl s
    exact ⟨_, he⟩
  | decode raw =>
    obtain ⟨st, r, he⟩ := exec_decode_responds raw s
    exact ⟨_, he⟩
  | buildReq | status | reset | reserved00 | reserved08 | reserved10 | reserved20 | reserved40 | reserved80 => exact ⟨_, rfl⟩
  | frameCtrl | frameData | frameUnm | rxf | rxw | begin => cases hi

/-- R112: no command that a host can present stops an FCR with the invariant. -/
theorem Invariant.exists_step {s : State} (h : Invariant s) : ∃ t, step s = .next t := by
  cases hp : s.port with
  | nil => exact ⟨s, step_nil h.cfg_wf hp⟩
  | cons c rest =>
    rw [step_cons h.cfg_wf hp]
    cases hd : decode c with
    | instr i => exact (h.set_port rest).exists_exec (decode_isCommand hd)
    | reject r => exact ⟨_, rfl⟩

/-! ### Several FCRs -/

theorem stepAt_of_getElem?_eq_none {sys : Fcrs} {k : Nat} (hk : sys[k]? = none) : stepAt k sys = .next sys := by
  simp only [stepAt, hk]

theorem stepAt_of_next {sys : Fcrs} {k : Nat} {s t : State} (hk : sys[k]? = some s) (hs : step s = .next t) :
    stepAt k sys = .next (sys.set k t) := by
  simp only [stepAt, hk, hs]

theorem stepAt_of_fault {sys : Fcrs} {k : Nat} {s : State} {r : Fault} (hk : sys[k]? = some s) (hs : step s = .fault r) :
    stepAt k sys = .fault r := by
  simp only [stepAt, hk, hs]

theorem stepAt_of_refused {sys : Fcrs} {k : Nat} {s : State} {r : Refusal} (hk : sys[k]? = some s)
    (hs : step s = .refused r) : stepAt k sys = .refused r := by
  simp only [stepAt, hk, hs]

/-- A step of element `k` is a `set` of that element. No element is there past the end, where `set` changes nothing, so the
two cases of `stepAt` have one form. -/
theorem stepAt_eq_next_iff {sys sys1 : Fcrs} {k : Nat} :
    stepAt k sys = .next sys1 ↔ ∃ t, (∀ s, sys[k]? = some s → step s = .next t) ∧ sys1 = sys.set k t := by
  cases hk : sys[k]? with
  | none =>
    have hset (t : State) : sys.set k t = sys := List.set_eq_of_length_le (List.getElem?_eq_none_iff.1 hk)
    rw [stepAt_of_getElem?_eq_none hk]
    constructor
    · intro h
      cases h
      exact ⟨State.reset, fun _ h => (nomatch h), (hset _).symm⟩
    · rintro ⟨t, -, rfl⟩
      rw [hset]
  | some s =>
    constructor
    · intro h
      cases hs : step s with
      | next t =>
        rw [stepAt_of_next hk hs] at h
        cases h
        exact ⟨t, fun _ h => by cases h; exact hs, rfl⟩
      | fault r => rw [stepAt_of_fault hk hs] at h; cases h
      | refused r => rw [stepAt_of_refused hk hs] at h; cases h
    · rintro ⟨t, ht, rfl⟩
      exact stepAt_of_next hk (ht s rfl)

/-- FCRs with the invariant never stop and keep it (R112). -/
theorem exists_stepAt_of_invariant {sys : Fcrs} (h : ∀ s ∈ sys, Invariant s) (k : Nat) :
    ∃ sys1, stepAt k sys = .next sys1 ∧ ∀ s ∈ sys1, Invariant s := by
  cases hk : sys[k]? with
  | none => exact ⟨sys, stepAt_of_getElem?_eq_none hk, h⟩
  | some s =>
    have hs : Invariant s := h s (List.mem_of_getElem? hk)
    obtain ⟨t, ht⟩ := hs.exists_step
    refine ⟨sys.set k t, stepAt_of_next hk ht, fun u hu => ?_⟩
    rcases List.mem_or_eq_of_mem_set hu with hu | rfl
    · exact h u hu
    · exact step_keeps_invariant hs ht

/-- Steps of two elements are `set`s at two indices: neither is seen at the other index, and they commute. -/
theorem stepAt_comm {sys sys1 sys2 : Fcrs} {j k : Nat} (hjk : j ≠ k) (h1 : stepAt j sys = .next sys1)
    (h2 : stepAt k sys1 = .next sys2) :
    sys1[k]? = sys[k]? ∧ ∃ sys3, stepAt k sys = .next sys3 ∧ stepAt j sys3 = .next sys2 := by
  obtain ⟨t, ht, rfl⟩ := stepAt_eq_next_iff.1 h1
  obtain ⟨u, hu, rfl⟩ := stepAt_eq_next_iff.1 h2
  have hk : (sys.set j t)[k]? = sys[k]? := List.getElem?_set_ne hjk
  have hj : (sys.set k u)[j]? = sys[j]? := List.getElem?_set_ne hjk.symm
  rw [hk] at hu
  refine ⟨hk, sys.set k u, stepAt_eq_next_iff.2 ⟨u, hu, rfl⟩, stepAt_eq_next_iff.2 ⟨t, ?_, List.set_comm _ _ hjk⟩⟩
  rwa [hj]

/-- Settles O60: `stepAt` is a `set` of one element, and every step from the invariant answers a state with the invariant. -/
theorem fcrsAreIndependent : Obligations.FcrsAreIndependent := by
  refine ⟨fun sys k s hk => ⟨fun t hs => ?_, fun r => stepAt_of_fault hk, fun r => stepAt_of_refused hk⟩,
    fun sys k h => exists_stepAt_of_invariant h k, fun sys sys1 sys2 j k => stepAt_comm⟩
  obtain ⟨hlt, -⟩ := List.getElem?_eq_some_iff.1 hk
  exact ⟨sys.set k t, stepAt_of_next hk hs, List.getElem?_set_self hlt, List.length_set, fun j hj => List.getElem?_set_ne hj.symm⟩

end Sys2Proof.Machine
end

section
/-! PROOFS. Which instructions write a state element (20_memory.md R45, 10_state.md R30), and the append that has no address to write
(R36, log 10). -/

namespace Sys2Proof.Machine

open Sys2Proof.Claims (SameBlock)

/-! ### What an instruction leaves unchanged -/

/-- A response stands in the queue outside the block, so it changes no element of R20 (60_exceptions.md R112). -/
theorem sameBlock_respond (s : State) (st : Status) (r : Bytes) : SameBlock s (s.respond st r) :=
  ⟨rfl, rfl, rfl, rfl, rfl, rfl⟩

/-- Responding, `start`, `append` and `clear` all keep the parameters and the commands waiting (R30, R47). -/
theorem exec_keeps_cfg_port {i : Instr} {s t : State} (h : exec i s = .next t) : t.cfg = s.cfg ∧ t.port = s.port := by
  rcases exec_cases h with ⟨st, r, rfl⟩ | ⟨F, o, -, rfl⟩ | ⟨F, o, -, -, rfl⟩ | rfl | ⟨r, rfl⟩ <;> exact ⟨rfl, rfl⟩

/-- Settles O52: all but the seven writers do no more than respond. -/
theorem onlyFramesAndResetsWriteState : Obligations.OnlyFramesAndResetsWriteState := by
  intro s t i h
  obtain ⟨hcfg, hport⟩ := exec_keeps_cfg_port h
  refine ⟨hcfg, hport, ?_⟩
  cases i with
  | rx | frameCtrl | frameData | rxf | rxw | reset | begin => right; simp
  | encode id len pl =>
    obtain ⟨st, r, he⟩ := exec_encode_responds id len pl s
    rw [he] at h
    cases h
    exact .inl (sameBlock_respond s _ _)
  | decode raw =>
    obtain ⟨st, r, he⟩ := exec_decode_responds raw s
    rw [he] at h
    cases h
    exact .inl (sameBlock_respond s _ _)
  | readVin =>
    obtain ⟨st, r, rfl⟩ := exec_readVin_cases h
    exact .inl (sameBlock_respond s _ _)
  | buildReq | status | reserved00 | reserved08 | reserved10 | reserved20 | reserved40 | reserved80 | frameUnm =>
    cases h
    exact .inl (sameBlock_respond s _ _)

/-! ### An append past the end of `ACC` -/

theorem receive_of_classify_data {s : State} {F : Frame} (hc : classify s.cfg F = .data) : receive s F = receiveData s F := by
  simp only [receive, hc]

/-- A DATA frame whose number R94 accepts is appended in Collecting. -/
theorem receiveData_of_seqOk {s : State} {F : Frame} (hr : s.rs = .collecting) (hq : seqOk s F = true) :
    receiveData s F = appendFrame s F := by
  simp only [receiveData, hr, hq, if_true]

theorem appendFrame_of_no_room {s : State} (F : Frame) (h : 259 < s.accLen.toNat + 7) :
    appendFrame s F = .fault .accOutOfRange :=
  if_neg (not_le.2 h)

/-- Settles O27: the frame is accepted, so it is appended, and there is no room; RX of its record is the same move. -/
theorem appendPastTheAccumulatorStops : Obligations.AppendPastTheAccumulatorStops := by
  intro s F hr hq hfull
  have hstop : receiveData s F = .fault .accOutOfRange := by
    rw [receiveData_of_seqOk hr ((seqOk_iff s F).2 hq), appendFrame_of_no_room F hfull]
  refine ⟨hstop, fun hc => ?_⟩
  rw [exec_rx, receiveRaw_of_decode (decodeRecord_frameRecord F), receive_of_classify_data hc, hstop]

end Sys2Proof.Machine
end

section
/-! PROOFS. The command decoder and the encoder undo each other (30_encoding.md R62, R63, R66, R67, R70). -/

namespace Sys2Proof.Machine

/-! ### The opcode byte -/

/-- R63 and R66: an opcode is that of one of the seven commands, or reserved. -/
theorem op_cases (op : Byte) :
    op = 0x01 ∨ op = 0x02 ∨ op = 0x03 ∨ op = 0x04 ∨ op = 0x05 ∨ op = 0x06 ∨ op = 0x07 ∨ op = 0x00 ∨ 0x08 ≤ op.toNat := by
  bv_omega

theorem toNat_one_append {m n : Nat} (hm : 0 < m) (low : BitVec n) :
    ((1 : BitVec m) ++ low).toNat = 2 ^ n + low.toNat := by
  have hone : (1 : BitVec m).toNat = 1 := BitVec.toNat_one hm
  rw [BitVec.toNat_append, ← Nat.shiftLeft_add_eq_or_of_lt low.isLt, Nat.shiftLeft_eq, hone, Nat.one_mul]

/-- A word whose bits above the lowest `n` are 1 is that 1 before its low bits. -/
theorem exists_one_append {m n : Nat} (hm : 0 < m) {x : BitVec (m + n)} (h : x.toNat / 2 ^ n = 1) :
    ∃ low : BitVec n, x = (1 : BitVec m) ++ low := by
  refine ⟨x.setWidth n, BitVec.eq_of_toNat_eq ?_⟩
  have hdiv := Nat.div_add_mod' x.toNat (2 ^ n)
  rw [toNat_one_append hm, BitVec.toNat_setWidth, ← hdiv, h, Nat.one_mul, Nat.add_mod_left, Nat.mod_mod]

/-- R66: a reserved opcode is zero or falls in the row of its highest set bit. -/
theorem reserved_op_cases {op : Byte} (h : op = 0x00 ∨ 0x08 ≤ op.toNat) :
    op = 0x00 ∨ (∃ low : BitVec 3, op = (1 : BitVec 5) ++ low) ∨ (∃ low : BitVec 4, op = (1 : BitVec 4) ++ low) ∨
      (∃ low : BitVec 5, op = (1 : BitVec 3) ++ low) ∨ (∃ low : BitVec 6, op = (1 : BitVec 2) ++ low) ∨
      ∃ low : BitVec 7, op = (1 : BitVec 1) ++ low := by
  have hrow : op = 0x00 ∨ op.toNat / 2 ^ 3 = 1 ∨ op.toNat / 2 ^ 4 = 1 ∨ op.toNat / 2 ^ 5 = 1 ∨ op.toNat / 2 ^ 6 = 1 ∨
      op.toNat / 2 ^ 7 = 1 := h.imp_right fun h8 => by have := op.isLt; omega
  exact hrow.imp_right (.imp (exists_one_append (m := 5) (n := 3) (by decide)) (.imp
    (exists_one_append (m := 4) (n := 4) (by decide)) (.imp (exists_one_append (m := 3) (n := 5) (by decide)) (.imp
    (exists_one_append (m := 2) (n := 6) (by decide)) (exists_one_append (m := 1) (n := 7) (by decide))))))

/-! ### Reading a reserved opcode -/

theorem extractLsb'_one_append_low {m n : Nat} (low : BitVec n) : ((1 : BitVec m) ++ low).extractLsb' 0 n = low := by
  rw [BitVec.extractLsb'_append_eq_of_add_le (Nat.zero_add n).le, BitVec.extractLsb'_eq_self]

theorem extractLsb'_one_append_top {m n : Nat} (hm : 0 < m) (low : BitVec n) :
    ((1 : BitVec m) ++ low).extractLsb' n 1 = 1 := by
  apply BitVec.eq_of_toNat_eq
  rw [BitVec.extractLsb'_toNat, toNat_one_append hm, Nat.shiftRight_eq_div_pow,
    Nat.add_div_left _ (Nat.two_pow_pos n), Nat.div_eq_of_lt low.isLt]
  rfl

theorem extractLsb'_one_append_above {m n k : Nat} (hm : 0 < m) (hk : n < k) (low : BitVec n) :
    ((1 : BitVec m) ++ low).extractLsb' k 1 ≠ 1 := by
  intro h
  have hlt : 2 ^ n + low.toNat < 2 ^ k := by
    have := Nat.pow_le_pow_right (n := 2) (by decide) (Nat.succ_le_of_lt hk)
    have := low.isLt
    omega
  have h0 := congrArg BitVec.toNat h
  rw [BitVec.extractLsb'_toNat, toNat_one_append hm, Nat.shiftRight_eq_div_pow, Nat.div_eq_of_lt hlt] at h0
  exact absurd h0 (by decide)

/-! ### What each opcode decodes to -/

theorem decode_of_reserved {op : Byte} (h : op = 0x00 ∨ 0x08 ≤ op.toNat) (opd : Bytes) :
    decode ⟨op, opd⟩ = .instr (decodeReserved op opd) := by
  have hne : op ≠ 0x01 ∧ op ≠ 0x02 ∧ op ≠ 0x03 ∧ op ≠ 0x04 ∧ op ≠ 0x05 ∧ op ≠ 0x06 ∧ op ≠ 0x07 := by bv_omega
  simp only [decode, hne, if_false]

theorem eight_le_toNat_one_append {m n : Nat} (hm : 0 < m) (hn : 3 ≤ n) (low : BitVec n) :
    8 ≤ ((1 : BitVec m) ++ low).toNat := by
  rw [toNat_one_append hm]
  exact (Nat.pow_le_pow_right (n := 2) (by decide) hn).trans (Nat.le_add_right _ _)

theorem decode_reserved08 (low : BitVec 3) (opd : Bytes) :
    decode ⟨(1 : BitVec 5) ++ low, opd⟩ = .instr (.reserved08 low opd) := by
  have above (j : Nat) (hj : 3 < j) := extractLsb'_one_append_above (m := 5) (by decide) hj low
  rw [decode_of_reserved (.inr (eight_le_toNat_one_append (by decide) (by decide) low)), decodeReserved,
    if_neg (above 7 (by decide)), if_neg (above 6 (by decide)), if_neg (above 5 (by decide)), if_neg (above 4 (by decide)),
    if_pos (extractLsb'_one_append_top (by decide) low), extractLsb'_one_append_low]

theorem decode_reserved10 (low : BitVec 4) (opd : Bytes) :
    decode ⟨(1 : BitVec 4) ++ low, opd⟩ = .instr (.reserved10 low opd) := by
  have above (j : Nat) (hj : 4 < j) := extractLsb'_one_append_above (m := 4) (by decide) hj low
  rw [decode_of_reserved (.inr (eight_le_toNat_one_append (by decide) (by decide) low)), decodeReserved,
    if_neg (above 7 (by decide)), if_neg (above 6 (by decide)), if_neg (above 5 (by decide)),
    if_pos (extractLsb'_one_append_top (by decide) low), extractLsb'_one_append_low]

theorem decode_reserved20 (low : BitVec 5) (opd : Bytes) :
    decode ⟨(1 : BitVec 3) ++ low, opd⟩ = .instr (.reserved20 low opd) := by
  have above (j : Nat) (hj : 5 < j) := extractLsb'_one_append_above (m := 3) (by decide) hj low
  rw [decode_of_reserved (.inr (eight_le_toNat_one_append (by decide) (by decide) low)), decodeReserved,
    if_neg (above 7 (by decide)), if_neg (above 6 (by decide)), if_pos (extractLsb'_one_append_top (by decide) low),
    extractLsb'_one_append_low]

theorem decode_reserved40 (low : BitVec 6) (opd : Bytes) :
    decode ⟨(1 : BitVec 2) ++ low, opd⟩ = .instr (.reserved40 low opd) := by
  have above (j : Nat) (hj : 6 < j) := extractLsb'_one_append_above (m := 2) (by decide) hj low
  rw [decode_of_reserved (.inr (eight_le_toNat_one_append (by decide) (by decide) low)), decodeReserved,
    if_neg (above 7 (by decide)), if_pos (extractLsb'_one_append_top (by decide) low), extractLsb'_one_append_low]

theorem decode_reserved80 (low : BitVec 7) (opd : Bytes) :
    decode ⟨(1 : BitVec 1) ++ low, opd⟩ = .instr (.reserved80 low opd) := by
  rw [decode_of_reserved (.inr (eight_le_toNat_one_append (by decide) (by decide) low)), decodeReserved,
    if_pos (extractLsb'_one_append_top (by decide) low), extractLsb'_one_append_low]

theorem decodeEncode_bytesLe32 (id : BitVec 32) (len : Byte) (pl : Bytes) :
    decodeEncode (bytesLe32 id ++ len :: pl) = .instr (.encode id len pl) := by
  simp only [bytesLe32, List.cons_append, List.nil_append, decodeEncode, le32_of_bytes]

theorem decodeEncode_eq_instr {opd : Bytes} {i : Instr} (h : decodeEncode opd = .instr i) :
    ∃ id len pl, i = .encode id len pl ∧ opd = bytesLe32 id ++ len :: pl := by
  unfold decodeEncode at h
  split at h
  · cases h
    exact ⟨_, _, _, rfl, by rw [bytesLe32_le32]; rfl⟩
  · cases h

theorem decodeBuildReq_eq_instr {opd : Bytes} {i : Instr} (h : decodeBuildReq opd = .instr i) :
    ∃ sa, i = .buildReq sa ∧ opd = [sa] := by
  unfold decodeBuildReq at h
  split at h <;> cases h
  exact ⟨_, rfl, rfl⟩

theorem decodeNoOperand_eq_instr_iff {op : Byte} {i j : Instr} {opd : Bytes} :
    decodeNoOperand op i opd = .instr j ↔ opd = [] ∧ j = i := by
  cases opd <;> simp [decodeNoOperand, eq_comm]

/-! ### The two directions -/

/-- The decoder reads the commands of an instruction as the commands it expands to (R63, R66, R70). -/
theorem map_decode_encode (i : Instr) : (encode i).map decode = (expand i).map .instr := by
  cases i with
  | encode id len pl => exact congrArg ([·]) (decodeEncode_bytesLe32 id len pl)
  | reserved00 opd => exact congrArg ([·]) (decode_of_reserved (.inl rfl) opd)
  | reserved08 low opd => exact congrArg ([·]) (decode_reserved08 low opd)
  | reserved10 low opd => exact congrArg ([·]) (decode_reserved10 low opd)
  | reserved20 low opd => exact congrArg ([·]) (decode_reserved20 low opd)
  | reserved40 low opd => exact congrArg ([·]) (decode_reserved40 low opd)
  | reserved80 low opd => exact congrArg ([·]) (decode_reserved80 low opd)
  | rxf id len data => cases h : encodeRecord id len data <;> simp only [encode, expand, h] <;> rfl
  | decode | buildReq | rx | readVin | status | reset | frameCtrl | frameData | frameUnm | rxw | begin => rfl

/-- A command of the block stands for itself (R70). -/
theorem expand_of_isCommand {i : Instr} (h : i.isCommand = true) : expand i = [i] := by
  cases i with
  | frameCtrl | frameData | frameUnm | rxf | rxw | begin => cases h
  | encode | decode | buildReq | rx | readVin | status | reset | reserved00 | reserved08 | reserved10 | reserved20 | reserved40
  | reserved80 => rfl

/-- Settles O10: constructor by constructor; the operand of ENCODE and the low bits of a reserved opcode are read back. -/
theorem decodeOfEncodeIsTheInstruction : Obligations.DecodeOfEncodeIsTheInstruction :=
  fun _ i _ => ⟨map_decode_encode i, expand_of_isCommand⟩

theorem encode_of_decode_reserved {op : Byte} {opd : Bytes} {i : Instr} (hop : op = 0x00 ∨ 0x08 ≤ op.toNat)
    (h : decode ⟨op, opd⟩ = .instr i) : encode i = [⟨op, opd⟩] := by
  rcases reserved_op_cases hop with rfl | ⟨low, rfl⟩ | ⟨low, rfl⟩ | ⟨low, rfl⟩ | ⟨low, rfl⟩ | ⟨low, rfl⟩
  · rw [decode_of_reserved hop] at h; cases h; rfl
  · rw [decode_reserved08] at h; cases h; rfl
  · rw [decode_reserved10] at h; cases h; rfl
  · rw [decode_reserved20] at h; cases h; rfl
  · rw [decode_reserved40] at h; cases h; rfl
  · rw [decode_reserved80] at h; cases h; rfl

/-- No bit of a command is lost in decoding it (R62, R63). -/
theorem encode_of_decode {c : Command} {i : Instr} (h : decode c = .instr i) : encode i = [c] := by
  obtain ⟨op, opd⟩ := c
  rcases op_cases op with rfl | rfl | rfl | rfl | rfl | rfl | rfl | hop
  · obtain ⟨id, len, pl, rfl, rfl⟩ := decodeEncode_eq_instr h
    rfl
  · cases h; rfl
  · obtain ⟨sa, rfl, rfl⟩ := decodeBuildReq_eq_instr h
    rfl
  · cases h; rfl
  · obtain ⟨rfl, rfl⟩ := decodeNoOperand_eq_instr_iff.1 h
    rfl
  · obtain ⟨rfl, rfl⟩ := decodeNoOperand_eq_instr_iff.1 h
    rfl
  · obtain ⟨rfl, rfl⟩ := decodeNoOperand_eq_instr_iff.1 h
    rfl
  · exact encode_of_decode_reserved hop h

/-- Settles O11: opcode by opcode. -/
theorem encodeOfDecodeIsTheCommand : Obligations.EncodeOfDecodeIsTheCommand :=
  fun _ _ h => ⟨encode_of_decode h, decode_isCommand h⟩

/-! ### The rows of the opcode table -/

/-- `tableOperandLength` bytes are an operand that every opcode takes (R67, log 17). -/
theorem decode_tableOperandLength (op : Byte) :
    ∃ i, decode ⟨op, List.replicate (tableOperandLength op) 0⟩ = .instr i := by
  rcases op_cases op with rfl | rfl | rfl | rfl | rfl | rfl | rfl | hop
  · exact ⟨_, rfl⟩
  · exact ⟨_, rfl⟩
  · exact ⟨_, rfl⟩
  · exact ⟨_, rfl⟩
  · exact ⟨_, rfl⟩
  · exact ⟨_, rfl⟩
  · exact ⟨_, rfl⟩
  · exact ⟨_, decode_of_reserved hop _⟩

/-- The one row that matches the opcode of a command of the block is the row of the command's instruction (R63, R66); a reserved
row's mask is tested on each value of its free bits. -/
theorem opcodeRows_of_encode {i : Instr} {op : Byte} {opd : Bytes} (hi : i.isCommand = true) (h : encode i = [⟨op, opd⟩]) :
    ∃ r, opcodeRow i = some r ∧ opcodeRows.filter (fun q => op &&& q.1 == q.2) = [r] := by
  cases i with
  | frameCtrl | frameData | frameUnm | rxf | rxw | begin => cases hi
  | encode | decode | buildReq | rx | readVin | status | reset | reserved00 => cases h; exact ⟨_, rfl, by decide⟩
  | reserved08 low => cases h; exact ⟨_, rfl, by clear hi; revert low; decide⟩
  | reserved10 low => cases h; exact ⟨_, rfl, by clear hi; revert low; decide⟩
  | reserved20 low => cases h; exact ⟨_, rfl, by clear hi; revert low; decide⟩
  | reserved40 low => cases h; exact ⟨_, rfl, by clear hi; revert low; decide⟩
  | reserved80 low => cases h; exact ⟨_, rfl, by clear hi; revert low; decide⟩

/-- Settles O6: the row follows from the command that the instruction encodes to. -/
theorem eachOpcodeDecodesToItsTableRow : Obligations.EachOpcodeDecodesToItsTableRow :=
  ⟨fun op => ⟨_, decode_tableOperandLength op⟩,
    fun _ _ _ h => opcodeRows_of_encode (decode_isCommand h) (encode_of_decode h)⟩

end Sys2Proof.Machine
end

section
/-! PROOFS. What a step answers to each command (30_encoding.md R62, R64, R66, R67). -/

namespace Sys2Proof.Machine

open Sys2Proof.Claims (AnswersIllegal)

/-! ### IllegalCommand -/

/-- Settles O3: `step` takes the command from the port and runs what it decodes to. -/
theorem stepRunsTheDecodedCommand : Obligations.StepRunsTheDecodedCommand := by
  intro s c rest hw hp
  refine ⟨fun i hd => ?_, fun r hd => ?_⟩
  · rw [step_cons hw hp, hd]
  · rw [step_cons hw hp, hd]

/-- Settles O5: each word is decoded. -/
theorem writtenCommandWordsDecode : Obligations.WrittenCommandWordsDecode := by
  unfold Obligations.WrittenCommandWordsDecode
  decide

/-- Settles O8: the six arms raise the same error. -/
theorem reservedInstructionsAnswerIllegalCommand : Obligations.ReservedInstructionsAnswerIllegalCommand :=
  fun _ _ _ _ _ _ _ => ⟨rfl, rfl, rfl, rfl, rfl, rfl⟩

theorem exec_decodeReserved (op : Byte) (opd : Bytes) (s : State) :
    exec (decodeReserved op opd) s = .next (s.respond .illegalCommand []) := by
  unfold decodeReserved
  split_ifs <;> rfl

/-- Settles O7: the opcode decodes to an instruction of a reserved row, which raises the error. -/
theorem reservedOpcodesAnswerIllegalCommand : Obligations.ReservedOpcodesAnswerIllegalCommand := by
  intro op opd hop s rest hw hp
  rw [step_cons hw hp, decode_of_reserved hop]
  exact exec_decodeReserved op opd _

theorem answersIllegal_of_reject {op : Byte} {opd : Bytes} {r : Reject} (h : decode ⟨op, opd⟩ = .reject r) :
    AnswersIllegal op opd := fun s rest hw hp => by rw [step_cons hw hp, h]

theorem decodeEncode_of_length_lt {opd : Bytes} (h : opd.length < 5) : decodeEncode opd = .reject (.operandLength 0x01) := by
  unfold decodeEncode
  split
  · simp only [List.length_cons] at h; omega
  · rfl

theorem decodeBuildReq_of_length_ne {opd : Bytes} (h : opd.length ≠ 1) :
    decodeBuildReq opd = .reject (.operandLength 0x03) := by
  unfold decodeBuildReq
  split
  · exact absurd rfl h
  · rfl

theorem decodeNoOperand_of_length_ne {op : Byte} {i : Instr} {opd : Bytes} (h : opd.length ≠ 0) :
    decodeNoOperand op i opd = .reject (.operandLength op) := by
  cases opd with
  | nil => exact absurd rfl h
  | cons b bs => rfl

/-- Settles O9: the decoder rejects each wrong length by name, and takes the operand of DECODE and RX as it is. -/
theorem wrongOperandLengthAnswersIllegalCommand : Obligations.WrongOperandLengthAnswersIllegalCommand := by
  intro opd
  refine ⟨fun h => ?_, fun h => ?_, fun h => ⟨?_, ?_, ?_⟩, rfl, rfl⟩
  · exact answersIllegal_of_reject (decodeEncode_of_length_lt h)
  · exact answersIllegal_of_reject (decodeBuildReq_of_length_ne h)
  · exact answersIllegal_of_reject (decodeNoOperand_of_length_ne h)
  · exact answersIllegal_of_reject (decodeNoOperand_of_length_ne h)
  · exact answersIllegal_of_reject (decodeNoOperand_of_length_ne h)

/-! ### One response a command -/

/-- One response has been given, and it has no result bytes unless its status is OK (R62, R64). -/
def AnsweredOnce (s t : State) : Prop := ∃ r : Response, t.out = s.out ++ [r] ∧ (r.status ≠ .ok → r.result = [])

/-- `s` is the state the command found, `u` the one it left before it responded. -/
theorem answeredOnce_ok {s u : State} (h : u.out = s.out) (r : Bytes) : AnsweredOnce s (u.respond .ok r) :=
  ⟨⟨.ok, r⟩, by rw [State.respond_out, h], fun hne => absurd rfl hne⟩

theorem answeredOnce_error (s : State) (e : Status) : AnsweredOnce s (s.respond e []) := ⟨⟨e, []⟩, rfl, fun _ => rfl⟩

theorem answeredOnce_receive {s t : State} {F : Frame} (h : receive s F = .next t) : AnsweredOnce s t := by
  rcases receive_cases h with rfl | ⟨-, -, rfl⟩ | ⟨-, -, rfl⟩ | ⟨-, -, -, -, rfl⟩ <;> exact answeredOnce_ok rfl _

theorem answeredOnce_receiveRaw {s t : State} {raw : Bytes} (h : receiveRaw s raw = .next t) : AnsweredOnce s t := by
  rcases receiveRaw_cases h with ⟨-, rfl⟩ | ⟨F, -, hF⟩
  · exact answeredOnce_error s _
  · exact answeredOnce_receive hF

theorem exec_encode_of_eq_some {id : BitVec 32} {len : Byte} {pl r : Bytes} (h : encodeRecord id len pl = some r) (s : State) :
    exec (.encode id len pl) s = .next (s.respond .ok r) := by
  simp only [exec, execEncode, h, answer_eq]

theorem exec_encode_of_eq_none {id : BitVec 32} {len : Byte} {pl : Bytes} (h : encodeRecord id len pl = none) (s : State) :
    exec (.encode id len pl) s = .next (s.respond .invalidPayload []) := by
  simp only [exec, execEncode, h, raiseError_eq]

theorem exec_decode_of_eq_some {raw : Bytes} {F : Frame} (h : decodeRecord raw = some F) (s : State) :
    exec (.decode raw) s = .next (s.respond .ok (frameResult F)) := by
  simp only [exec, execDecode, h, answer_eq]

theorem exec_decode_of_eq_none {raw : Bytes} (h : decodeRecord raw = none) (s : State) :
    exec (.decode raw) s = .next (s.respond .malformedFrame []) := by
  simp only [exec, execDecode, h, raiseError_eq]

/-- Every command that ends is answered once; BEGIN, which is two commands, is none (R70). -/
theorem answeredOnce_exec {i : Instr} {s t : State} (hi : i.isCommand = true) (h : exec i s = .next t) : AnsweredOnce s t := by
  cases i with
  | encode id len pl =>
    cases hr : encodeRecord id len pl with
    | some r =>
      rw [exec_encode_of_eq_some hr] at h
      cases h
      exact answeredOnce_ok rfl r
    | none =>
      rw [exec_encode_of_eq_none hr] at h
      cases h
      exact answeredOnce_error s _
  | decode raw =>
    cases hd : decodeRecord raw with
    | some F =>
      rw [exec_decode_of_eq_some hd] at h
      cases h
      exact answeredOnce_ok rfl _
    | none =>
      rw [exec_decode_of_eq_none hd] at h
      cases h
      exact answeredOnce_error s _
  | rx raw => exact answeredOnce_receiveRaw h
  | readVin =>
    by_cases hr : s.rs = .complete
    · cases hv : vinBytes s with
      | some b =>
        rw [exec_readVin_of_vinBytes_eq_some hr hv] at h
        cases h
        exact answeredOnce_ok rfl _
      | none =>
        rw [exec_readVin_of_vinBytes_eq_none hr hv] at h
        cases h
    · rw [exec_readVin_of_ne_complete hr] at h
      cases h
      exact answeredOnce_error s _
  | buildReq | status | reset => cases h; exact answeredOnce_ok rfl _
  | reserved00 | reserved08 | reserved10 | reserved20 | reserved40 | reserved80 => cases h; exact answeredOnce_error s _
  | frameCtrl | frameData | frameUnm | rxf | rxw | begin => cases hi

/-- A step that finds a command takes it from the port, keeps the configuration and answers once. -/
theorem step_answers_command {s t : State} {c : Command} {rest : List Command} (hp : s.port = c :: rest)
    (h : step s = .next t) : t.port = rest ∧ t.cfg = s.cfg ∧ AnsweredOnce s t := by
  obtain ⟨-, ⟨hnil, -⟩ | ⟨c', rest', hp', hstep⟩⟩ := step_cases h
  · rw [hp] at hnil; cases hnil
  · rw [hp] at hp'; cases hp'
    rcases hstep with ⟨i, hd, hx⟩ | ⟨-, rfl⟩
    · obtain ⟨hcfg, hport⟩ := exec_keeps_cfg_port hx
      have hans := answeredOnce_exec (decode_isCommand hd) hx
      exact ⟨hport, hcfg, hans⟩
    · exact ⟨rfl, rfl, answeredOnce_error _ _⟩

/-- Settles O49: executed or rejected, the command is answered once. -/
theorem eachCommandIsAnsweredOnce : Obligations.EachCommandIsAnsweredOnce :=
  fun _ _ _ _ => step_answers_command

theorem response_bytes_cases {r : Response} (h : r.status ≠ .ok → r.result = []) :
    r.bytes = 0x00 :: r.result ∨ r.bytes = [0x01] ∨ r.bytes = [0x02] ∨ r.bytes = [0x03] ∨ r.bytes = [0x04] := by
  obtain ⟨st, b⟩ := r
  cases st with
  | ok => exact .inl rfl
  | invalidPayload => cases h nofun; exact .inr (.inl rfl)
  | malformedFrame => cases h nofun; exact .inr (.inr (.inl rfl))
  | notComplete => cases h nofun; exact .inr (.inr (.inr (.inl rfl)))
  | illegalCommand => cases h nofun; exact .inr (.inr (.inr (.inr rfl)))

/-- Settles O51: the bytes are read off the status, and an error status has no result. -/
theorem responseBytesFollowTheStatus : Obligations.ResponseBytesFollowTheStatus := by
  refine ⟨fun r => ?_, fun s t c rest hp h => ?_⟩
  · obtain ⟨st, b⟩ := r
    cases st <;> rfl
  · obtain ⟨-, -, r, hout, hres⟩ := step_answers_command hp h
    exact ⟨r, hout, response_bytes_cases hres⟩

end Sys2Proof.Machine
end

section
/-! PROOFS. Frames: their instructions, their classes, and the fields that do not count (30_encoding.md R57, R59, R60). -/

namespace Sys2Proof.Machine

/-! ### The frame instruction of a record -/

theorem frameInstr_wf (c : Config) (F : Frame) : (frameInstr c F).wf c = true := by
  unfold frameInstr
  cases h : classify c F <;> simp [Instr.wf, h]

theorem decodeFrame_of_decodeRecord {raw : Bytes} {F : Frame} (h : decodeRecord raw = some F) (c : Config) :
    decodeFrame c raw = some (frameInstr c F) := by
  rw [decodeFrame, h, Option.map_some]

/-- A well-formed frame instruction is the one its frame's class chooses. -/
theorem frameInstr_of_wf {c : Config} {i : Instr} {F : Frame} (hi : i = .frameCtrl F ∨ i = .frameData F ∨ i = .frameUnm F)
    (hw : i.wf c = true) : frameInstr c F = i := by
  rcases hi with rfl | rfl | rfl <;> rw [frameInstr, eq_of_beq hw]

/-- Settles O12: sixteen bytes always decode, and a frame's record decodes to the frame. -/
theorem frameInstructionsRoundTrip : Obligations.FrameInstructionsRoundTrip := by
  refine ⟨fun c raw hlen => ?_, fun c i F hi hw => ?_⟩
  · have hd := decodeRecord_of_length hlen
    exact ⟨_, hd, decodeFrame_of_decodeRecord hd c, frameInstr_wf c _⟩
  · rw [decodeFrame_of_decodeRecord (decodeRecord_frameRecord F), frameInstr_of_wf hi hw]

/-! ### Words byte by byte -/

theorem bitVec_append_inj {m n : Nat} {a b : BitVec m} {x y : BitVec n} : a ++ x = b ++ y ↔ a = b ∧ x = y := by
  refine ⟨fun h => ⟨?_, ?_⟩, fun h => by rw [h.1, h.2]⟩
  · have := congrArg (BitVec.extractLsb' n m) h
    rwa [BitVec.extractLsb'_append_eq_left, BitVec.extractLsb'_append_eq_left] at this
  · have := congrArg (BitVec.extractLsb' 0 n) h
    rwa [BitVec.extractLsb'_append_eq_right, BitVec.extractLsb'_append_eq_right] at this

/-- The embedded PGN is the one asked for exactly where payload bytes 5 to 7 are `EC FE 00` (R39, R54). -/
theorem embeddedPgn_eq_targetPgn_iff (F : Frame) :
    embeddedPgn F = targetPgn ↔ F.payload.b5 = 0xEC ∧ F.payload.b6 = 0xFE ∧ F.payload.b7 = 0x00 := by
  have h : targetPgn = le24 0xEC 0xFE 0x00 := by decide
  rw [h, embeddedPgn, le24, le24, bitVec_append_inj, bitVec_append_inj]
  tauto

theorem le32_and (a b c d a' b' c' d' : Byte) :
    le32 a b c d &&& le32 a' b' c' d' = le32 (a &&& a') (b &&& b') (c &&& c') (d &&& d') := by
  refine BitVec.eq_of_getLsbD_eq fun i _ => ?_
  simp only [BitVec.getLsbD_and, le32_getLsbD]
  split_ifs <;> rfl

theorem le32_or (a b c d a' b' c' d' : Byte) :
    le32 a b c d ||| le32 a' b' c' d' = le32 (a ||| a') (b ||| b') (c ||| c') (d ||| d') := by
  refine BitVec.eq_of_getLsbD_eq fun i _ => ?_
  simp only [BitVec.getLsbD_or, le32_getLsbD]
  split_ifs <;> rfl

theorem setWidth_eq_le32 (a : Byte) : a.setWidth 32 = le32 a 0 0 0 := by
  refine BitVec.eq_of_getLsbD_eq fun i hi => ?_
  rw [le32_getLsbD, BitVec.getLsbD_setWidth]
  split_ifs with h8
  · simp [hi]
  all_goals simp [BitVec.getLsbD_of_ge a i (by omega)]

/-- The source address of a record's frame is byte 0 of the record (R16, R51). -/
theorem id_le32_sourceAddress (a b c d : Byte) : ((le32 a b c d).extractLsb' 0 29).extractLsb' 0 8 = a := by
  refine BitVec.eq_of_getLsbD_eq fun i hi => ?_
  simp [le32_getLsbD, hi]

/-- The PGN of a record's frame is bytes 1 and 2 of the record (R16, R51). -/
theorem id_le32_pgn (a b c d : Byte) : ((le32 a b c d).extractLsb' 0 29).extractLsb' 8 16 = c ++ b := by
  refine BitVec.eq_of_getLsbD_eq fun i hi => ?_
  have h29 : 8 + i < 29 := by omega
  simp only [BitVec.getLsbD_extractLsb', BitVec.getLsbD_append, le32_getLsbD, hi, h29]
  by_cases h8 : i < 8
  · have h16 : 8 + i < 16 := by omega
    simp [h8, h16]
  · have h16 : ¬ 8 + i < 16 := by omega
    have h24 : 8 + i < 24 := by omega
    have hsub : 8 + i - 16 = i - 8 := by omega
    simp [h8, h16, h24, hsub]

theorem and_allOnes_byte (a : Byte) : a &&& 0xFF = a := BitVec.and_allOnes

theorem and_zero_byte (a : Byte) : a &&& 0x00 = 0x00 := BitVec.and_zero

/-- The default mask compares the upper byte of the PGN alone (R7). -/
theorem pgn_and_default_mask_iff (b c hi : Byte) : (c ++ b : BitVec 16) &&& 0xFF00 = hi ++ (0 : Byte) ↔ c = hi := by
  have hmask : (0xFF00 : BitVec 16) = (0xFF : Byte) ++ (0x00 : Byte) := by decide
  rw [hmask, BitVec.and_append, and_allOnes_byte, and_zero_byte, bitVec_append_inj, and_iff_left rfl]

theorem le32_and_word_mask (a b c d : Byte) : le32 a b c d &&& 0x00FF00FF = le32 a 0 c 0 := by
  have hmask : (0x00FF00FF : BitVec 32) = le32 0xFF 0x00 0xFF 0x00 := by decide
  rw [hmask, le32_and, and_allOnes_byte, and_zero_byte, and_allOnes_byte, and_zero_byte]

theorem le32_or_setWidth (hi sa : Byte) : le32 0 0 hi 0 ||| sa.setWidth 32 = le32 sa 0 hi 0 := by
  rw [setWidth_eq_le32, le32_or]
  simp

/-- R57's default-parameter column: the identifier word under `0x00FF00FF` holds the PGN's upper byte and the source address. -/
theorem word_and_iff (w : BitVec 32) (hi sa : Byte) :
    w &&& 0x00FF00FF = le32 0 0 hi 0 ||| sa.setWidth 32 ↔
      (w.extractLsb' 0 29).extractLsb' 8 16 &&& 0xFF00 = hi ++ (0 : Byte) ∧ (w.extractLsb' 0 29).extractLsb' 0 8 = sa := by
  obtain ⟨a, b, c, d, rfl⟩ : ∃ a b c d, w = le32 a b c d := ⟨_, _, _, _, (le32_of_bytes w).symm⟩
  rw [id_le32_pgn, id_le32_sourceAddress, pgn_and_default_mask_iff, le32_and_word_mask, le32_or_setWidth]
  refine ⟨fun h => ?_, fun ⟨hc, ha⟩ => by rw [hc, ha]⟩
  obtain ⟨ha, -, hc, -⟩ := le32_inj h
  exact ⟨hc, ha⟩

/-! ### The classes -/

theorem withDefaults_tpcm_masked (sa : Byte) :
    (Config.withDefaults sa).tpcmPgn &&& (Config.withDefaults sa).pgnMask = (0xEC : Byte) ++ (0x00 : Byte) := by
  change (0xEC00 : BitVec 16) &&& 0xFF00 = _
  decide

theorem withDefaults_tpdt_masked (sa : Byte) :
    (Config.withDefaults sa).tpdtPgn &&& (Config.withDefaults sa).pgnMask = (0xEB : Byte) ++ (0x00 : Byte) := by
  change (0xEB00 : BitVec 16) &&& 0xFF00 = _
  decide

theorem withDefaults_wf (sa : Byte) : (Config.withDefaults sa).wf = true := by
  rw [Config.wf, withDefaults_tpcm_masked, withDefaults_tpdt_masked]
  decide

/-- Settles O20: R57's conditions are those of `classify`; with the default parameters they are read off the identifier word. -/
theorem frameClassesFollowTheMap : Obligations.FrameClassesFollowTheMap := by
  refine ⟨fun c F hw => ⟨?_, ?_⟩, fun sa w len p F hd => ?_⟩
  · rw [classify_eq_ctrl_iff, embeddedPgn_eq_targetPgn_iff]
    rfl
  · rw [classify_eq_data_iff hw]
    rfl
  · rw [decodeRecord_wireRecord, Option.some.injEq] at hd
    subst hd
    have hctrl : (0x00EC0000 : BitVec 32) = le32 0 0 0xEC 0 := by decide
    have hdata : (0x00EB0000 : BitVec 32) = le32 0 0 0xEB 0 := by decide
    rw [hctrl, hdata, word_and_iff, word_and_iff, classify_eq_ctrl_iff, embeddedPgn_eq_targetPgn_iff,
      classify_eq_data_iff (withDefaults_wf sa), withDefaults_tpcm_masked, withDefaults_tpdt_masked, and_assoc]
    exact ⟨Iff.rfl, Iff.rfl⟩

/-! ### The fields that do not count -/

/-- The class depends on the masked PGN, the source address and payload bytes 0 and 5 to 7 alone (R59). -/
theorem classify_congr {c : Config} {F G : Frame} (hsa : F.id.extractLsb' 0 8 = G.id.extractLsb' 0 8)
    (hpgn : F.id.extractLsb' 8 16 &&& c.pgnMask = G.id.extractLsb' 8 16 &&& c.pgnMask) (h0 : F.payload.b0 = G.payload.b0)
    (h5 : F.payload.b5 = G.payload.b5) (h6 : F.payload.b6 = G.payload.b6) (h7 : F.payload.b7 = G.payload.b7) :
    classify c F = classify c G := by
  have hpgn' : pgnf F &&& c.pgnMask = pgnf G &&& c.pgnMask := hpgn
  have hsa' : sourceAddress F = sourceAddress G := hsa
  have htarget : embeddedPgn F = embeddedPgn G := by rw [embeddedPgn, h5, h6, h7, embeddedPgn]
  rw [classify, hpgn', hsa', h0, htarget, classify]

/-- Beyond its class, a frame acts by its payload alone (R87, R91). -/
theorem receive_congr {s : State} {F G : Frame} (hc : classify s.cfg F = classify s.cfg G) (hp : F.payload = G.payload) :
    receive s F = receive s G := by
  obtain ⟨idF, extF, lenF, p⟩ := F
  obtain ⟨idG, extG, lenG, q⟩ := G
  obtain rfl : p = q := hp
  rw [receive, receive, hc]
  cases classify s.cfg ⟨idG, extG, lenG, p⟩ <;> rfl

/-- Settles O21: such frames have one class, and RX of their records receives them. -/
theorem unexaminedFieldsHaveNoEffect : Obligations.UnexaminedFieldsHaveNoEffect := by
  intro s F G hsa hpgn
  refine ⟨classify_congr hsa hpgn, fun hp => ?_⟩
  have hc : classify s.cfg F = classify s.cfg G := classify_congr hsa hpgn (by rw [hp]) (by rw [hp]) (by rw [hp]) (by rw [hp])
  rw [exec_rx, exec_rx, receiveRaw_of_decode (decodeRecord_frameRecord F), receiveRaw_of_decode (decodeRecord_frameRecord G),
    receive_congr hc hp]

end Sys2Proof.Machine
end

section
/-! PROOFS. What an RX does and says it did (30_encoding.md R65, 41_reassembler.md R88), and the instructions that stand for others
(30_encoding.md R70). -/

namespace Sys2Proof.Machine

open Sys2Proof.Claims (AppendsChunk StartsRetrieval ReceivesFrame)

/-! ### The outcome byte -/

/-- The response a command adds to the queue is determined by the queue it leaves (R64). -/
theorem out_append_inj {o : List Response} {st st' : Status} {r r' : Bytes} (h : o ++ [⟨st, r⟩] = o ++ [⟨st', r'⟩]) :
    st = st' ∧ r = r' := by
  simpa using h

/-- Settles O34: the move of a received frame fixes both the byte and the change. -/
theorem outcomeByteSaysWhatHappened : Obligations.OutcomeByteSaysWhatHappened := by
  intro s t raw r h hout
  rw [exec_rx] at h
  rcases receiveRaw_cases h with ⟨-, rfl⟩ | ⟨F, -, hF⟩
  · obtain ⟨hst, -⟩ := out_append_inj hout
    cases hst
  · rcases receive_cases hF with rfl | ⟨-, hr, rfl⟩ | ⟨-, hr, rfl⟩ | ⟨-, hr, -, hroom, rfl⟩ <;>
      obtain ⟨-, rfl⟩ := out_append_inj hout
    · exact .inl ⟨rfl, sameBlock_respond s _ _⟩
    · exact .inr (.inl ⟨rfl, hr, rfl⟩)
    · exact .inr (.inr (.inr (.inr ⟨rfl, hr, rfl, rfl, rfl⟩)))
    · have hlen := accLen_add_seven hroom
      cases hc : completes (s.accLen + 7) s.tl
      · exact .inr (.inr (.inl ⟨rfl, hr, by rw [State.respond_rs, State.append_rs, hc]; rfl, rfl, hlen⟩))
      · exact .inr (.inr (.inr (.inl ⟨rfl, hr, by rw [State.respond_rs, State.append_rs, hc]; rfl, rfl, hlen⟩)))

/-! ### The table of R88 -/

theorem receive_of_complete {s : State} (F : Frame) (hr : s.rs = .complete) : receive s F = .next (s.respond .ok [0x00]) := by
  unfold receive receiveCtrl receiveData
  rw [hr]
  cases classify s.cfg F <;> rfl

theorem receiveCtrl_of_idle {s : State} (F : Frame) (hr : s.rs = .idle) :
    receiveCtrl s F = .next ((s.start F).respond .ok [0x01]) := by
  rw [receiveCtrl, hr]; rfl

theorem receiveCtrl_of_collecting {s : State} (F : Frame) (hr : s.rs = .collecting) :
    receiveCtrl s F = .next ((s.start F).respond .ok [0x04]) := by
  rw [receiveCtrl, hr]; rfl

theorem receiveData_of_idle {s : State} (F : Frame) (hr : s.rs = .idle) : receiveData s F = .next (s.respond .ok [0x00]) := by
  rw [receiveData, hr]; rfl

theorem receiveData_of_not_seqOk {s : State} {F : Frame} (hr : s.rs = .collecting) (hq : seqOk s F ≠ true) :
    receiveData s F = .next (s.respond .ok [0x00]) := by
  simp only [receiveData, hr, hq]; rfl

theorem receive_of_classify_unm {s : State} {F : Frame} (hc : classify s.cfg F = .unm) :
    receive s F = .next (s.respond .ok [0x00]) := by
  simp only [receive, hc]; rfl

theorem startsRetrieval_start (F : Frame) (code : Byte) (s : State) :
    StartsRetrieval F code s ((s.start F).respond .ok [code]) :=
  ⟨rfl, rfl, rfl, rfl, rfl, rfl, rfl, rfl⟩

theorem byteAt_chunk (F : Frame) (j : Nat) : byteAt (chunk F) j = byteAt (payloadBytes F.payload) (1 + j) := by
  rw [Nat.add_comm]; rfl

theorem cellGet_append_chunk (s : State) (F : Frame) {j : Nat} (hj : j < 7) :
    cellGet (s.append F).acc (s.accLen.toNat + j) = some (byteAt (payloadBytes F.payload) (1 + j)) := by
  rw [State.append_acc, cellGet_cellsWrite, chunk_length, if_pos (by omega), Nat.add_sub_cancel_left, ← byteAt_chunk]
  rfl

theorem cellGet_append_outside (s : State) (F : Frame) {a : Nat} (ha : a < s.accLen.toNat ∨ s.accLen.toNat + 7 ≤ a) :
    cellGet (s.append F).acc a = cellGet s.acc a := by
  rw [State.append_acc, cellGet_cellsWrite, chunk_length, if_neg (by omega)]

/-- The appended state, with the outcome of the completion test (R91, R92). -/
theorem appendsChunk_append {s : State} (F : Frame) (hroom : s.accLen.toNat + 7 ≤ 259) :
    AppendsChunk F s ((s.append F).respond .ok
      [(if completes (s.accLen + 7) s.tl then RxOutcome.completed else RxOutcome.appended).code]) := by
  have hlen := accLen_add_seven hroom
  refine ⟨hlen, rfl, rfl, rfl, fun j hj => cellGet_append_chunk s F hj, fun a ha => cellGet_append_outside s F ha, ?_⟩
  have hc := completes_iff (s.accLen + 7) s.tl
  rw [hlen] at hc
  by_cases htl : s.tl.toNat ≤ s.accLen.toNat + 7
  · rw [if_pos htl, State.respond_rs, State.append_rs, if_pos (hc.2 htl), if_pos (hc.2 htl)]
    exact ⟨rfl, rfl, rfl, rfl⟩
  · rw [if_neg htl, State.respond_rs, State.append_rs, if_neg (mt hc.1 htl), if_neg (mt hc.1 htl)]
    exact ⟨rfl, rfl, rfl, rfl⟩

/-- R88, row by row. -/
theorem receivesFrame_receive (F : Frame) (s : State) : ReceivesFrame F s (receive s F) := by
  refine ⟨fun hc hr => ?_, fun hc hr => ?_, fun hc hr hq hroom => ?_, fun hc hr hq => ?_, fun hc hr => ?_,
    receive_of_classify_unm, receive_of_complete F⟩
  · rw [receive_of_classify_ctrl hc, receiveCtrl_of_idle F hr]
    exact ⟨_, rfl, startsRetrieval_start F 0x01 s⟩
  · rw [receive_of_classify_ctrl hc, receiveCtrl_of_collecting F hr]
    exact ⟨_, rfl, startsRetrieval_start F 0x04 s⟩
  · rw [receive_of_classify_data hc, receiveData_of_seqOk hr ((seqOk_iff s F).2 hq)]
    exact ⟨_, appendFrame_eq_next_iff.2 ⟨hroom, rfl⟩, appendsChunk_append F hroom⟩
  · rw [receive_of_classify_data hc, receiveData_of_not_seqOk hr (mt (seqOk_iff s F).1 hq)]
  · rw [receive_of_classify_data hc, receiveData_of_idle F hr]

/-! ### Pseudo-commands and frame instructions -/

theorem exec_rxf_of_eq_some {id : BitVec 32} {len : Byte} {data r : Bytes} (h : encodeRecord id len data = some r) (s : State) :
    exec (.rxf id len data) s = receiveRaw s r := by
  rw [exec_rxf, h]

theorem exec_rxf_of_eq_none {id : BitVec 32} {len : Byte} {data : Bytes} (h : encodeRecord id len data = none) (s : State) :
    exec (.rxf id len data) s = .refused .assemblyError := by
  rw [exec_rxf, h]

/-- Settles O45: each of RXF and RXW is RX of a record that decodes to the frame it spells, and BEGIN runs through. -/
theorem pseudoCommandsHaveTheirEffect : Obligations.PseudoCommandsHaveTheirEffect := by
  refine ⟨fun s id len data hdata hlen hid => ?_, fun s w len data => ?_, fun s sa => ?_⟩
  · rw [exec_rxf_of_eq_some (encodeRecord_eq_some hdata hlen hid), receiveRaw_of_decode (decodeRecord_wireRecord _ _ _),
      extFlag_or_id, extFlag_or_flag]
    exact receivesFrame_receive _ s
  · rw [exec_rxw, receiveRaw_of_decode (decodeRecord_wireRecord w len data)]
    exact receivesFrame_receive _ s
  · refine ⟨_, rfl, rfl, rfl, rfl, rfl, rfl, rfl, rfl, _, rfl, ?_⟩
    simp

theorem execAll_singleton (i : Instr) (s : State) : execAll [i] s = exec i s := by
  rw [execAll]
  cases exec i s <;> rfl

/-- A frame instruction under its own class is RX of the frame's record (R85, R88; log 15). -/
theorem exec_rx_frameRecord {s : State} {i : Instr} {F : Frame} (hi : i = .frameCtrl F ∨ i = .frameData F ∨ i = .frameUnm F)
    (hw : i.wf s.cfg = true) : exec (.rx (frameRecord F)) s = exec i s := by
  rw [exec_rx, receiveRaw_of_decode (decodeRecord_frameRecord F), ← exec_frameInstr, frameInstr_of_wf hi hw]

theorem exists_encodeRecord_of_wf {c : Config} {id : BitVec 32} {len : Byte} {data : Bytes}
    (hw : (Instr.rxf id len data).wf c = true) : ∃ r, encodeRecord id len data = some r := by
  rw [Instr.wf, Bool.not_eq_true'] at hw
  exact ⟨_, if_neg (by rw [hw]; decide)⟩

/-- Settles O46: constructor by constructor. -/
theorem expansionHasTheSameEffect : Obligations.ExpansionHasTheSameEffect := by
  intro s i hw
  cases i with
  | frameCtrl F => rw [expand, execAll_singleton, exec_rx_frameRecord (.inl rfl) hw]
  | frameData F => rw [expand, execAll_singleton, exec_rx_frameRecord (.inr (.inl rfl)) hw]
  | frameUnm F => rw [expand, execAll_singleton, exec_rx_frameRecord (.inr (.inr rfl)) hw]
  | rxf id len data =>
    obtain ⟨r, hr⟩ := exists_encodeRecord_of_wf hw
    simp only [expand, hr, execAll_singleton, exec_rxf_of_eq_some hr, exec_rx]
  | rxw w len data => rw [expand, execAll_singleton, exec_rx, exec_rxw]
  | begin sa => rfl
  | encode | decode | buildReq | rx | readVin | status | reset | reserved00 | reserved08 | reserved10 | reserved20 | reserved40
  | reserved80 => rw [expand_of_isCommand rfl, execAll_singleton]

theorem appendFrame_ne_refused (s : State) (F : Frame) (r : Refusal) : appendFrame s F ≠ .refused r := by
  unfold appendFrame
  split <;> nofun

theorem receiveData_ne_refused (s : State) (F : Frame) (r : Refusal) : receiveData s F ≠ .refused r := by
  unfold receiveData
  split
  · nofun
  · split
    · exact appendFrame_ne_refused s F r
    · nofun
  · nofun

theorem receive_ne_refused (s : State) (F : Frame) (r : Refusal) : receive s F ≠ .refused r := by
  cases hc : classify s.cfg F with
  | ctrl =>
    obtain ⟨t, ht⟩ := exists_receiveCtrl s F
    rw [receive_of_classify_ctrl hc, ht]
    nofun
  | data =>
    rw [receive_of_classify_data hc]
    exact receiveData_ne_refused s F r
  | unm =>
    rw [receive_of_classify_unm hc]
    nofun

theorem receiveRaw_ne_refused (s : State) (raw : Bytes) (r : Refusal) : receiveRaw s raw ≠ .refused r := by
  unfold receiveRaw
  split
  · nofun
  · exact receive_ne_refused s _ r

/-- Settles O47: both stop exactly where ENCODE gives no record. -/
theorem rxfStopsWhereEncodeRefuses : Obligations.RxfStopsWhereEncodeRefuses := by
  intro s id len data
  cases h : encodeRecord id len data with
  | none => exact ⟨fun _ => exec_encode_of_eq_none h s, fun _ => exec_rxf_of_eq_none h s⟩
  | some r =>
    rw [exec_rxf_of_eq_some h, exec_encode_of_eq_some h]
    refine ⟨fun hx => absurd hx (receiveRaw_ne_refused s r _), fun hx => ?_⟩
    have hout := congrArg State.out (Host.Outcome.next.inj hx)
    obtain ⟨hst, -⟩ := out_append_inj hout
    cases hst

end Sys2Proof.Machine
end

section
/-! PROOFS. The codec commands ENCODE, DECODE and BUILD_REQ, and the records they return (40_codec.md). -/

namespace Sys2Proof.Machine

/-! ### The bytes of a record -/

theorem le32_wireRecord (w : BitVec 32) (len : Byte) (p : Payload) :
    le32 (byteAt (wireRecord w len p) 0) (byteAt (wireRecord w len p) 1) (byteAt (wireRecord w len p) 2)
      (byteAt (wireRecord w len p) 3) = w := le32_of_bytes w

theorem byteAt_wireRecord_payload (w : BitVec 32) (len : Byte) (p : Payload) (k : Nat) :
    byteAt (wireRecord w len p) (8 + k) = byteAt (payloadBytes p) k := by
  rw [Nat.add_comm]; rfl

theorem byteAt_payloadBytes_payloadOf (f : Nat → Byte) {k : Nat} (hk : k < 8) :
    byteAt (payloadBytes (payloadOf f)) k = f k := by
  interval_cases k <;> rfl

theorem payloadOf_congr {f g : Nat → Byte} (h : ∀ k, k < 8 → f k = g k) : payloadOf f = payloadOf g := by
  simp [payloadOf, h]

/-- The upper eight bits of an assembled word are its byte 3; the flag `W[31]` is bit 7 of it (R51). -/
theorem le32_getLsbD_high (a b c d : Byte) (i : Nat) : (le32 a b c d).getLsbD (24 + i) = d.getLsbD i := by
  rw [le32_getLsbD, if_neg (by omega), if_neg (by omega), if_neg (by omega), Nat.add_sub_cancel_left]

/-- A string of 16 bytes is a given wire record where it has that record's word, length, padding and payload (R50). -/
theorem wireRecord_eq_iff {r : Bytes} (h : r.length = 16) (w : BitVec 32) (len : Byte) (p : Payload) :
    wireRecord w len p = r ↔
      w = le32 (byteAt r 0) (byteAt r 1) (byteAt r 2) (byteAt r 3) ∧ len = byteAt r 4 ∧
      byteAt r 5 = 0 ∧ byteAt r 6 = 0 ∧ byteAt r 7 = 0 ∧
      ∀ k, k < 8 → byteAt (payloadBytes p) k = byteAt r (8 + k) := by
  refine ⟨?_, fun ⟨hw, hlen, h5, h6, h7, hp⟩ => ?_⟩
  · rintro rfl
    exact ⟨(le32_wireRecord w len p).symm, rfl, rfl, rfl, rfl, fun k _ => (byteAt_wireRecord_payload w len p k).symm⟩
  · have hpay : p = payloadOf fun k => byteAt r (8 + k) := payloadOf_congr (f := byteAt (payloadBytes p)) hp
    rw [eq_of_length_sixteen h, h5, h6, h7, ← hw, ← hlen, ← hpay, wireRecord]

/-! ### ENCODE -/

theorem respond_next_inj {s : State} {st st' : Status} {r r' : Bytes}
    (h : (.next (s.respond st r) : Host.Outcome State Fault Refusal) = .next (s.respond st' r')) : st = st' ∧ r = r' :=
  out_append_inj (congrArg State.out (Host.Outcome.next.inj h))

/-- ENCODE answers OK with exactly its record (R74). -/
theorem exec_encode_eq_ok_iff {id : BitVec 32} {len : Byte} {pl r : Bytes} {s : State} :
    exec (.encode id len pl) s = .next (s.respond .ok r) ↔ encodeRecord id len pl = some r := by
  refine ⟨fun h => ?_, fun h => exec_encode_of_eq_some h s⟩
  cases hr : encodeRecord id len pl with
  | some r' =>
    rw [exec_encode_of_eq_some hr] at h
    rw [(respond_next_inj h).2]
  | none =>
    rw [exec_encode_of_eq_none hr] at h
    cases (respond_next_inj h).1

/-- Where ENCODE gives a record, and which (R74). -/
theorem encodeRecord_eq_some_iff {id : BitVec 32} {len : Byte} {pl r : Bytes} :
    encodeRecord id len pl = some r ↔ (pl.length ≤ 8 ∧ len.toNat ≤ 8 ∧ id.toNat < 2 ^ 29) ∧
      wireRecord (extFlag ||| id) len (payloadOf (paddedByte len pl)) = r := by
  by_cases h : pl.length ≤ 8 ∧ len.toNat ≤ 8 ∧ id.toNat < 2 ^ 29
  · obtain ⟨hpl, hlen, hid⟩ := h
    rw [encodeRecord_eq_some hpl hlen hid, Option.some.injEq]
    exact ⟨fun hr => ⟨⟨hpl, hlen, hid⟩, hr⟩, And.right⟩
  · have hnone : encodeRecord id len pl = none := (encodeRecord_eq_none_iff id len pl).2 (by omega)
    rw [hnone]
    exact ⟨nofun, fun hr => absurd hr.1 h⟩

/-- Settles O13: the record is read byte by byte, and the refused operands are those with none. -/
theorem encodeBuildsTheRecord : Obligations.EncodeBuildsTheRecord := by
  refine ⟨fun s id len pl => ⟨fun ⟨hpl, hlen, hid⟩ => ?_, fun hbad => ?_⟩, fun opd hopd => ?_⟩
  · refine ⟨_, exec_encode_of_eq_some (encodeRecord_eq_some hpl hlen hid) s, wireRecord_length _ _ _,
      le32_wireRecord _ _ _, rfl, rfl, rfl, rfl, fun k hk => ?_⟩
    rw [byteAt_wireRecord_payload, byteAt_payloadBytes_payloadOf _ hk, paddedByte]
  · exact exec_encode_of_eq_none ((encodeRecord_eq_none_iff id len pl).2 hbad) s
  · exact answersIllegal_of_reject (decodeEncode_of_length_lt hopd)

/-! ### DECODE -/

theorem decodeRecord_length {raw : Bytes} {F : Frame} (h : decodeRecord raw = some F) : raw.length = 16 := by
  by_contra hlen
  rw [(decodeRecord_eq_none_iff raw).2 hlen] at h
  cases h

theorem le32_frameResult (F : Frame) :
    le32 (byteAt (frameResult F) 0) (byteAt (frameResult F) 1) (byteAt (frameResult F) 2) (byteAt (frameResult F) 3) =
      F.id.setWidth 32 := le32_of_bytes _

theorem byteAt_frameResult_payload (F : Frame) (k : Nat) :
    byteAt (frameResult F) (6 + k) = byteAt (payloadBytes F.payload) k := by
  rw [Nat.add_comm]; rfl

/-- Settles O14: the result of the decoded frame is read field by field. -/
theorem decodeReadsTheRecord : Obligations.DecodeReadsTheRecord := by
  refine fun s raw => ⟨fun hlen => ?_, fun hlen => ?_⟩
  · refine ⟨_, exec_decode_of_eq_some (decodeRecord_of_length hlen) s, rfl, fun i hi => ?_, fun i hi => ?_, ?_, rfl,
      fun k hk => ?_⟩
    · have h32 : i < 32 := by omega
      rw [le32_frameResult]
      simp [hi, h32]
    · have h29 : ¬ i < 29 := by omega
      rw [le32_frameResult]
      simp [h29]
    · rw [← le32_getLsbD_high (byteAt raw 0) (byteAt raw 1) (byteAt raw 2)]
      rfl
    · rw [byteAt_frameResult_payload, byteAt_payloadBytes_payloadOf _ hk]
  · exact exec_decode_of_eq_none ((decodeRecord_eq_none_iff raw).2 hlen) s

/-! ### The round trips of R75 -/

/-- Payload bytes from the length on that are zero already are what ENCODE's padding writes (R74). -/
theorem paddedByte_eq_byteAt {len : Byte} {pl : Bytes} (h : ∀ k, len.toNat ≤ k → k < pl.length → byteAt pl k = 0) :
    paddedByte len pl = byteAt pl := by
  funext k
  rw [paddedByte]
  split_ifs with hk
  · rfl
  · by_cases hpl : k < pl.length
    · exact (h k (by omega) hpl).symm
    · exact (List.getD_eq_default _ _ (by omega)).symm

theorem setWidth_id_of_lt {id : BitVec 32} (h : id.toNat < 2 ^ 29) : (id.setWidth 29).setWidth 32 = id := by
  refine BitVec.eq_of_toNat_eq ?_
  rw [BitVec.toNat_setWidth, BitVec.toNat_setWidth, Nat.mod_eq_of_lt h, Nat.mod_eq_of_lt id.isLt]

/-- Settles O15: the record of a valid triple decodes to its fields, and the padding adds nothing to such a payload. -/
theorem decodingAnEncodedFrameGivesItBack : Obligations.DecodingAnEncodedFrameGivesItBack := by
  intro s id len pl hid hlen hpl hzero
  have hd := decodeRecord_wireRecord (extFlag ||| id) len (payloadOf (paddedByte len pl))
  rw [extFlag_or_id, extFlag_or_flag, paddedByte_eq_byteAt hzero] at hd
  have he := encodeRecord_eq_some hpl hlen hid
  rw [paddedByte_eq_byteAt hzero] at he
  refine ⟨_, exec_encode_of_eq_some he s, hd, ?_⟩
  rw [exec_decode_of_eq_some hd, frameResult, setWidth_id_of_lt hid]
  rfl

/-- ENCODE gives a word its own value back where the flag is set and bits 30 and 29 are clear (R51, R75). -/
theorem extFlag_or_field_eq_iff (w : BitVec 32) :
    extFlag ||| (w.extractLsb' 0 29).setWidth 32 = w ↔
      w.getLsbD 31 = true ∧ w.getLsbD 30 = false ∧ w.getLsbD 29 = false := by
  have hbit : ∀ i, i < 32 → (extFlag ||| (w.extractLsb' 0 29).setWidth 32).getLsbD i =
      (decide (i = 31) || (decide (i < 29) && w.getLsbD i)) := fun i hi => by
    simp [extFlag_getElem, hi]
  constructor
  · intro h
    rw [h] at hbit
    exact ⟨hbit 31 (by decide), hbit 30 (by decide), hbit 29 (by decide)⟩
  · rintro ⟨h31, h30, h29⟩
    refine BitVec.eq_of_getLsbD_eq fun i hi => ?_
    rw [hbit i hi]
    obtain h | rfl | rfl | rfl : i < 29 ∨ i = 29 ∨ i = 30 ∨ i = 31 := by omega
    · have hne : i ≠ 31 := by omega
      simp [h, hne]
    · rw [h29]; rfl
    · rw [h30]; rfl
    · rw [h31]; rfl

/-- ENCODE's padding leaves a byte of a full payload as it is where the byte is below the length or zero (R74). -/
theorem byteAt_padded_eq_iff (len : Byte) (f : Nat → Byte) {k : Nat} (hk : k < 8) :
    byteAt (payloadBytes (payloadOf (paddedByte len (payloadBytes (payloadOf f))))) k = f k ↔ (len.toNat ≤ k → f k = 0) := by
  rw [byteAt_payloadBytes_payloadOf _ hk, paddedByte, payloadBytes_length, byteAt_payloadBytes_payloadOf f hk]
  split_ifs with h
  · exact ⟨fun _ hle => by omega, fun _ => rfl⟩
  · exact ⟨fun h0 _ => h0.symm, fun h0 => (h0 (by omega)).symm⟩

theorem toNat_id_setWidth_lt (id : BitVec 29) : (id.setWidth 32).toNat < 2 ^ 29 := by
  rw [BitVec.toNat_setWidth_of_le (by decide)]
  exact id.isLt

/-- Settles O16: ENCODE's record of the fields is the record compared field by field. -/
theorem encodingADecodedRecordGivesItBack : Obligations.EncodingADecodedRecordGivesItBack := by
  intro s r F hF
  have hlen := decodeRecord_length hF
  rw [decodeRecord_of_length hlen, Option.some.injEq] at hF
  subst hF
  rw [exec_encode_eq_ok_iff, encodeRecord_eq_some_iff, wireRecord_eq_iff hlen, extFlag_or_field_eq_iff,
    le32_getLsbD_high _ _ _ _ 7, le32_getLsbD_high _ _ _ _ 6, le32_getLsbD_high _ _ _ _ 5]
  refine ⟨fun ⟨⟨_, hle, _⟩, ⟨h31, h30, h29⟩, _, h5, h6, h7, hpay⟩ => ?_, fun ⟨h31, h30, h29, hle, h5, h6, h7, hpay⟩ => ?_⟩
  · exact ⟨h31, h30, h29, hle, h5, h6, h7, fun k hk => (byteAt_padded_eq_iff _ _ hk).1 (hpay k hk)⟩
  · exact ⟨⟨le_rfl, hle, toNat_id_setWidth_lt _⟩, ⟨h31, h30, h29⟩, rfl, h5, h6, h7,
      fun k hk => (byteAt_padded_eq_iff _ _ hk).2 (hpay k hk)⟩

/-! ### BUILD_REQ -/

theorem exec_buildReq (sa : Byte) (s : State) :
    exec (.buildReq sa) s = .next (s.respond .ok (requestRecord s.cfg.reqPrio sa)) := rfl

/-- The four bytes of the request's identifier field (R56). -/
theorem setWidth_requestId (prio : BitVec 3) (sa : Byte) :
    (requestId prio sa).setWidth 32 = le32 sa 0xF9 0xEA (prio.setWidth 8 <<< 2) := by
  have htop : ∀ q : BitVec 3, (q ++ (0 : BitVec 2) ++ (reqPgn ||| reqDa.setWidth 16)).setWidth 24 =
      (q.setWidth 8 <<< 2) ++ (0xEA : Byte) ++ (0xF9 : Byte) := by decide
  rw [requestId, BitVec.setWidth_append, dif_neg (by decide), le32]
  exact congrArg (· ++ sa) (htop prio)

theorem extFlag_eq_le32 : extFlag = le32 0 0 0 0x80 := by decide

/-- The identifier word of the request record (R78). -/
theorem requestWord_eq_le32 (prio : BitVec 3) (sa : Byte) :
    extFlag ||| (requestId prio sa).setWidth 32 = le32 sa 0xF9 0xEA (0x80 ||| (prio.setWidth 8 <<< 2)) := by
  rw [setWidth_requestId, extFlag_eq_le32, le32_or]
  simp

/-- R78's expression for the identifier is the four bytes of the request's. -/
theorem requestId_expression (prio : BitVec 3) (sa : Byte) :
    (prio.setWidth 32 <<< 26) ||| 0x00EAF900 ||| sa.setWidth 32 = (requestId prio sa).setWidth 32 := by
  have hprio : ∀ q : BitVec 3, (q.setWidth 32 <<< 26) = le32 0 0 0 (q.setWidth 8 <<< 2) := by decide
  have hpgn : (0x00EAF900 : BitVec 32) = le32 0 0xF9 0xEA 0 := by decide
  rw [hprio, hpgn, setWidth_eq_le32, le32_or, le32_or, setWidth_requestId]
  simp

theorem requestRecord_eq (prio : BitVec 3) (sa : Byte) :
    requestRecord prio sa = [sa, 0xF9, 0xEA, 0x80 ||| (prio.setWidth 8 <<< 2), 0x03, 0x00, 0x00, 0x00,
      0xEC, 0xFE, 0x00, 0x00, 0x00, 0x00, 0x00, 0x00] := by
  rw [requestRecord, requestWord_eq_le32, wireRecord, bytesLe32_le32]
  rfl

/-- R79: the request record is ENCODE's. -/
theorem encodeRecord_request (prio : BitVec 3) (sa : Byte) :
    encodeRecord ((requestId prio sa).setWidth 32) 3 [0xEC, 0xFE, 0x00] = some (requestRecord prio sa) := by
  rw [encodeRecord_eq_some (by decide) (by decide) (toNat_id_setWidth_lt _)]
  rfl

/-- Settles O17: the record byte by byte, and as ENCODE's of R78's identifier expression. -/
theorem buildReqGivesTheVinRequest : Obligations.BuildReqGivesTheVinRequest := by
  refine ⟨fun s sa => ⟨?_, ?_⟩, fun opd hopd => ?_⟩
  · rw [exec_buildReq, requestRecord_eq]
  · rw [requestId_expression, exec_encode_of_eq_some (encodeRecord_request _ sa), exec_buildReq]
  · exact answersIllegal_of_reject (decodeBuildReq_of_length_ne hopd)

/-- Settles O18: the response is chosen by a function of the operands, and for BUILD_REQ of the priority. -/
theorem codecCommandsArePure : Obligations.CodecCommandsArePure := by
  refine fun s u => ⟨fun id len pl => ?_, fun raw => ?_, fun hprio sa => ?_⟩
  · cases h : encodeRecord id len pl with
    | some r => exact ⟨.ok, r, exec_encode_of_eq_some h s, exec_encode_of_eq_some h u⟩
    | none => exact ⟨.invalidPayload, [], exec_encode_of_eq_none h s, exec_encode_of_eq_none h u⟩
  · cases h : decodeRecord raw with
    | some F => exact ⟨.ok, frameResult F, exec_decode_of_eq_some h s, exec_decode_of_eq_some h u⟩
    | none => exact ⟨.malformedFrame, [], exec_decode_of_eq_none h s, exec_decode_of_eq_none h u⟩
  · exact ⟨_, exec_buildReq sa s, by rw [exec_buildReq, hprio]⟩

/-! ### Malformed strings, and records that are not -/

/-- RX of a string that does not decode (R77). -/
theorem receiveRaw_of_decode_eq_none {raw : Bytes} (h : decodeRecord raw = none) (s : State) :
    receiveRaw s raw = .next (s.respond .malformedFrame []) := by
  rw [receiveRaw, h]; rfl

/-- Settles O33: such a string does not decode. -/
theorem malformedFrameWritesNothing : Obligations.MalformedFrameWritesNothing := by
  intro s raw hlen
  have hd := (decodeRecord_eq_none_iff raw).2 hlen
  exact ⟨receiveRaw_of_decode_eq_none hd s, exec_decode_of_eq_none hd s⟩

/-- A frame that has been decoded is answered with OK, whatever its class and the state (R65, R88). -/
theorem receive_status_ok {s t : State} {F : Frame} (h : receive s F = .next t) : ∃ r, t.out = s.out ++ [⟨.ok, r⟩] := by
  rcases receive_cases h with rfl | ⟨-, -, rfl⟩ | ⟨-, -, rfl⟩ | ⟨-, -, -, -, rfl⟩ <;> exact ⟨_, rfl⟩

theorem receive_ne_malformedFrame (s : State) (F : Frame) : receive s F ≠ .next (s.respond .malformedFrame []) := fun h => by
  obtain ⟨r, hout⟩ := receive_status_ok h
  cases (out_append_inj hout).1

/-- Whatever ENCODE or BUILD_REQ returns is the wire record of a word with the flag set (R83). -/
theorem exists_wireRecord_of_codec {i : Instr} {s : State} {r : Bytes}
    (hi : (∃ id len pl, i = .encode id len pl) ∨ ∃ sa, i = .buildReq sa) (h : exec i s = .next (s.respond .ok r)) :
    ∃ id len p, r = wireRecord (extFlag ||| id) len p := by
  rcases hi with ⟨id, len, pl, rfl⟩ | ⟨sa, rfl⟩
  · obtain ⟨-, rfl⟩ := encodeRecord_eq_some_iff.1 (exec_encode_eq_ok_iff.1 h)
    exact ⟨_, _, _, rfl⟩
  · obtain ⟨-, rfl⟩ := respond_next_inj h
    exact ⟨_, _, _, rfl⟩

/-- Settles O19: a wire record decodes, so neither command finds it malformed. -/
theorem returnedRecordsAreNeverMalformed : Obligations.ReturnedRecordsAreNeverMalformed := by
  intro i s r hi h
  obtain ⟨id, len, p, rfl⟩ := exists_wireRecord_of_codec hi h
  have hd := decodeRecord_wireRecord (extFlag ||| id) len p
  refine ⟨wireRecord_length _ _ _, ?_, fun u => ⟨?_, ?_⟩⟩
  · rw [← le32_getLsbD_high, le32_wireRecord, extFlag_or_flag]
  · rw [exec_rx, receiveRaw_of_decode hd]
    exact receive_ne_malformedFrame u _
  · rw [exec_decode_of_eq_some hd]
    exact fun hx => nomatch (respond_next_inj hx).1

/-! ### The looped-back request -/

/-- A frame with neither PGN is unmatched (R57, R85). -/
theorem classify_eq_unm {c : Config} {F : Frame} (hcm : pgnf F &&& c.pgnMask ≠ c.tpcmPgn &&& c.pgnMask)
    (hdt : pgnf F &&& c.pgnMask ≠ c.tpdtPgn &&& c.pgnMask) : classify c F = .unm := by
  simp [classify, hcm, hdt]

/-- The frame of the request record has neither transport PGN of the defaults (R56, R81). -/
theorem classify_requestRecord {c : Config} (hcm : c.tpcmPgn = 0xEC00) (hdt : c.tpdtPgn = 0xEB00) (hmask : c.pgnMask = 0xFF00)
    (prio : BitVec 3) (sa : Byte) :
    ∃ F, decodeRecord (requestRecord prio sa) = some F ∧ classify c F = .unm := by
  refine ⟨_, decodeRecord_wireRecord _ _ _, ?_⟩
  have hpgn : ((extFlag ||| (requestId prio sa).setWidth 32).extractLsb' 0 29).extractLsb' 8 16 = (0xEAF9 : BitVec 16) := by
    rw [requestWord_eq_le32, id_le32_pgn]
    decide
  apply classify_eq_unm <;> rw [pgnf, hpgn, hmask]
  · rw [hcm]; decide
  · rw [hdt]; decide

/-- Settles O22: RX of the record receives an unmatched frame. -/
theorem loopedBackRequestIsIgnored : Obligations.LoopedBackRequestIsIgnored := by
  intro s u sa r hcfg h
  obtain ⟨-, rfl⟩ := respond_next_inj h
  obtain ⟨F, hF, hunm⟩ := classify_requestRecord (congrArg Config.tpcmPgn hcfg) (congrArg Config.tpdtPgn hcfg)
    (congrArg Config.pgnMask hcfg) u.cfg.reqPrio sa
  refine ⟨⟨F, hF, hunm⟩, ?_⟩
  rw [exec_rx, receiveRaw_of_decode hF, receive_of_classify_unm hunm]

end Sys2Proof.Machine
end

section
/-! PROOFS. What RX does to the reassembler, phase by phase and class by class (41_reassembler.md R88 to R97). -/

namespace Sys2Proof.Machine

open Sys2Proof.Claims (AppendsChunk Answered ReceivesFrame SequenceAccepted StartsRetrieval)

/-! ### RX is the decoded frame received -/

theorem exec_rx_of_decode {raw : Bytes} {F : Frame} (h : decodeRecord raw = some F) (s : State) :
    exec (.rx raw) s = receive s F := receiveRaw_of_decode h

theorem receivesFrame_rx {raw : Bytes} {F : Frame} (h : decodeRecord raw = some F) (s : State) :
    ReceivesFrame F s (exec (.rx raw) s) := by
  rw [exec_rx_of_decode h]
  exact receivesFrame_receive F s

/-- Settles O23: RX receives the frame, by the table of R88, and a string of another length is malformed. -/
theorem rxRunsTheStateMachine : Obligations.RxRunsTheStateMachine := by
  refine ⟨fun s raw F hd => receivesFrame_rx hd s, fun s raw hlen => ?_⟩
  exact receiveRaw_of_decode_eq_none ((decodeRecord_eq_none_iff raw).2 hlen) s

/-- Settles O43: under its own class a frame instruction is `receive`. -/
theorem frameInstructionsRunTheStateMachine : Obligations.FrameInstructionsRunTheStateMachine := by
  intro s F
  have hmove : ∀ i, frameInstr s.cfg F = i → ReceivesFrame F s (exec i s) := by
    rintro i rfl
    rw [exec_frameInstr]
    exact receivesFrame_receive F s
  refine ⟨fun hc => hmove _ ?_, fun hc => hmove _ ?_, fun hc => hmove _ ?_⟩ <;> rw [frameInstr, hc]

/-- Settles O44: the instruction that the record is has the class of the record's frame. -/
theorem rxIsTheFrameInstruction : Obligations.RxIsTheFrameInstruction := by
  intro s raw i h
  obtain ⟨F, hd, rfl⟩ := Option.map_eq_some_iff.1 h
  rw [exec_rx_of_decode hd, exec_frameInstr]

/-! ### The payload bytes of a raw record -/

theorem payload_of_decodeRecord {raw : Bytes} {F : Frame} (h : decodeRecord raw = some F) :
    F.payload = payloadOf fun k => byteAt raw (8 + k) := by
  rw [decodeRecord_of_length (decodeRecord_length h), Option.some.injEq] at h
  rw [← h]

theorem byteAt_payloadBytes_of_decodeRecord {raw : Bytes} {F : Frame} (h : decodeRecord raw = some F) {k : Nat} (hk : k < 8) :
    byteAt (payloadBytes F.payload) k = byteAt raw (8 + k) := by
  rw [payload_of_decodeRecord h, byteAt_payloadBytes_payloadOf _ hk]

/-- `start` as R89 and R90 write it, in bytes of the record. -/
theorem startsRetrieval_raw {raw : Bytes} {F : Frame} {code : Byte} {s t : State} (hd : decodeRecord raw = some F)
    (h : StartsRetrieval F code s t) :
    t.rs = .collecting ∧ t.tl = byteAt raw 9 ∧ t.epc = byteAt raw 10 ∧ t.rpc = 0 ∧ t.accLen = 0 ∧
      Answered .ok [code] s t := by
  have hp := payload_of_decodeRecord hd
  obtain ⟨hrs, htl, hepc, hrest⟩ := h
  rw [hp] at htl hepc
  exact ⟨hrs, htl, hepc, hrest⟩

/-- R94's test, in the record's own sequence byte. -/
theorem sequenceAccepted_raw_iff {raw : Bytes} {F : Frame} (hd : decodeRecord raw = some F) (s : State) :
    SequenceAccepted F s ↔ (s.cfg.strictSeq = true → (byteAt raw 8).toNat = s.rpc.toNat + 1) := by
  have hb : F.payload.b0 = byteAt raw 8 := by rw [payload_of_decodeRecord hd]; rfl
  rw [SequenceAccepted, hb]
  cases s.cfg.strictSeq <;> simp

/-! ### CTRL frames -/

/-- Settles O24: rows one and five of R88's table. -/
theorem idleStartsOnControlPacket : Obligations.IdleStartsOnControlPacket := by
  intro s raw F hd hr
  obtain ⟨hstart, -, -, -, hdata, -, -⟩ := receivesFrame_rx hd s
  refine ⟨fun hc => ?_, fun hc => hdata hc hr⟩
  obtain ⟨t, ht, hst⟩ := hstart hc hr
  exact ⟨t, ht, startsRetrieval_raw hd hst⟩

/-- Settles O25: row two of R88's table. -/
theorem collectingRestartsOnControlPacket : Obligations.CollectingRestartsOnControlPacket := by
  intro s raw F hd hr hc
  obtain ⟨-, hrestart, -, -, -, -, -⟩ := receivesFrame_rx hd s
  obtain ⟨t, ht, hst⟩ := hrestart hc hr
  exact ⟨t, ht, startsRetrieval_raw hd hst⟩

/-! ### Ignored frames -/

/-- Settles O32: rows four to seven of R88's table. -/
theorem unmatchedFrameIsIgnored : Obligations.UnmatchedFrameIsIgnored := by
  intro s raw F hd hignored
  obtain ⟨-, -, -, hreject, hidle, hunm, hcomplete⟩ := receivesFrame_rx hd s
  rcases hignored with hc | ⟨hr, hc⟩ | hr | ⟨hr, hc, hstrict, hne⟩
  · exact hunm hc
  · exact hidle hc hr
  · exact hcomplete hr
  · refine hreject hc hr fun hq => hne ?_
    exact (sequenceAccepted_raw_iff hd s).1 hq hstrict

/-- Settles O30: no move but `clear` leaves Complete, and `clear` enters Idle, which only the two instructions do. -/
theorem completeIsAbsorbing : Obligations.CompleteIsAbsorbing := by
  refine ⟨fun s raw hr hlen => ?_, fun s t i hr hx hne => ?_⟩
  · rw [exec_rx_of_decode (decodeRecord_of_length hlen), receive_of_complete _ hr]
  · refine idleIsEnteredOnlyByReset s t i hx (by rw [hr]; nofun) ?_
    rcases exec_cases hx with ⟨st, r, rfl⟩ | ⟨F, o, hs, -⟩ | ⟨F, o, hs, -, -⟩ | rfl | ⟨r, rfl⟩
    · exact absurd hr hne
    · exact absurd hr hs
    · rw [hr] at hs; cases hs
    · rfl
    · rfl

/-! ### DATA frames -/

/-- Settles O26: row three of R88's table, in bytes of the record. -/
theorem collectingAppendsDataPacket : Obligations.CollectingAppendsDataPacket := by
  intro s raw F hd hr hc hseq hroom
  obtain ⟨-, -, happend, -, -, -, -⟩ := receivesFrame_rx hd s
  obtain ⟨t, ht, hlen, hrpc, htl, hepc, hchunk, hother, hphase⟩ :=
    happend hc hr ((sequenceAccepted_raw_iff hd s).2 hseq) hroom
  refine ⟨t, ht, htl, hepc, hrpc, hlen, fun j hj => ?_, hother, fun hle => ?_, fun hlt => ?_⟩
  · rw [hchunk j hj, byteAt_payloadBytes_of_decodeRecord hd (by omega), ← Nat.add_assoc]
  · rwa [if_pos hle] at hphase
  · rwa [if_neg (not_le.2 hlt)] at hphase

/-- An append uses the frame's chunk and nothing else of it (R91). -/
theorem append_congr {F G : Frame} (h : chunk F = chunk G) (s : State) : s.append F = s.append G := by
  rw [State.append, h, State.append]

/-- Reference mode accepts every DATA frame, so such a frame acts by its chunk alone (R94, R97). -/
theorem receiveData_congr {s : State} {F G : Frame} (hmode : s.cfg.strictSeq = false) (h : chunk F = chunk G) :
    receiveData s F = receiveData s G := by
  have hF : seqOk s F = true := (seqOk_iff s F).2 (.inl hmode)
  have hG : seqOk s G = true := (seqOk_iff s G).2 (.inl hmode)
  rw [receiveData, receiveData, hF, hG, appendFrame, append_congr h, appendFrame]

/-- The sequence number has no part in the DATA class (R57). -/
theorem classify_data_of_set_b0 {c : Config} {F : Frame} (hw : c.wf = true) (hc : classify c F = .data) (x : Byte) :
    classify c { F with payload := { F.payload with b0 := x } } = .data := by
  have hdata := (classify_eq_data_iff hw).1 hc
  exact (classify_eq_data_iff hw).2 hdata

/-- Settles O28: in strict mode the frame is one of those that O32 lists; in reference mode the two frames have one chunk. -/
theorem sequenceNumberMattersOnlyInStrictMode : Obligations.SequenceNumberMattersOnlyInStrictMode := by
  refine ⟨fun s raw F hd hc hstrict hne => unmatchedFrameIsIgnored s raw F hd ?_, fun s F x hw hc hmode => ?_⟩
  · cases hr : s.rs with
    | idle => exact .inr (.inl ⟨rfl, hc⟩)
    | collecting => exact .inr (.inr (.inr ⟨rfl, hc, hstrict, hne⟩))
    | complete => exact .inr (.inr (.inl rfl))
  · rw [exec_rx_of_decode (decodeRecord_frameRecord _), exec_rx_of_decode (decodeRecord_frameRecord F),
      receive_of_classify_data hc, receive_of_classify_data (classify_data_of_set_b0 hw hc x)]
    exact receiveData_congr hmode rfl

theorem exists_rx_appendsChunk {s : State} {raw : Bytes} {F : Frame} (hd : decodeRecord raw = some F) (hr : s.rs = .collecting)
    (hc : classify s.cfg F = .data) (hmode : s.cfg.strictSeq = false) (hroom : s.accLen.toNat + 7 ≤ 259) :
    ∃ t, exec (.rx raw) s = .next t ∧ AppendsChunk F s t := by
  obtain ⟨-, -, happend, -, -, -, -⟩ := receivesFrame_rx hd s
  exact happend hc hr (.inl hmode) hroom

/-- Settles O29: the second append stands after the first and leaves it as it is. -/
theorem duplicatePacketIsAppendedTwice : Obligations.DuplicatePacketIsAppendedTwice := by
  intro s t F hr hc hmode hroom ht htr
  have hd := decodeRecord_frameRecord F
  obtain ⟨hcfg, -⟩ := exec_keeps_cfg_port ht
  obtain ⟨t', ht', hlen, -, -, -, hchunk, -, -⟩ := exists_rx_appendsChunk hd hr hc hmode (by omega)
  cases ht.symm.trans ht'
  rw [← hcfg] at hc hmode
  obtain ⟨u, hu, hlen', -, -, -, hchunk', hother, -⟩ := exists_rx_appendsChunk hd htr hc hmode (by omega)
  refine ⟨u, hu, by omega, fun j hj => ⟨?_, ?_⟩⟩
  · rw [hother _ (.inl (by omega)), hchunk j hj]
  · rw [← hlen, hchunk' j hj]

end Sys2Proof.Machine
end

section
/-! PROOFS. READ_VIN, STATUS and RESET (41_reassembler.md R98 to R101). -/

namespace Sys2Proof.Machine

open Sys2Proof.Claims (AnswersIllegal)

/-- READ_VIN, STATUS and RESET take no operand (30_encoding.md R67). -/
theorem answersIllegal_of_ne_nil {opd : Bytes} (h : opd ≠ []) :
    AnswersIllegal 0x05 opd ∧ AnswersIllegal 0x06 opd ∧ AnswersIllegal 0x07 opd := by
  obtain ⟨-, -, hnone, -, -⟩ := wrongOperandLengthAnswersIllegalCommand opd
  exact hnone (mt List.length_eq_zero_iff.1 h)

/-! ### READ_VIN -/

/-- R98's bound, in the form the statements write it. -/
theorem vinDecode_eq_filter (b : Bytes) : vinDecode b = b.filter (·.toNat < 0x80) :=
  List.filter_congr fun _ _ => decide_eq_decide.2 Nat.lt_succ_iff.symm

theorem exists_vinBytes_of_cellGet {s : State} (h : ∀ j, j < min s.tl.toNat 17 → cellGet s.acc j ≠ none) :
    ∃ b, vinBytes s = some b := by
  refine cellsRead_isSome s.acc 0 _ fun j hj => ?_
  rw [Nat.zero_add]
  exact Option.isSome_iff_ne_none.2 (h j hj)

/-- Settles O36: where every byte has a value the read answers, and outside Complete there is none. -/
theorem readVinReturnsTheVin : Obligations.ReadVinReturnsTheVin := by
  refine ⟨fun s hr hvalues => ?_, fun s => exec_readVin_of_ne_complete, fun opd h => (answersIllegal_of_ne_nil h).1⟩
  obtain ⟨b, hv⟩ := exists_vinBytes_of_cellGet hvalues
  obtain ⟨hlen, hbytes⟩ := cellsRead_eq_some hv
  refine ⟨b, hlen, fun j hj => ?_, ?_⟩
  · have hbyte := hbytes j (hlen ▸ hj)
    rwa [Nat.zero_add] at hbyte
  · rw [exec_readVin_of_vinBytes_eq_some hr hv, vinDecode_eq_filter]

/-- READ_VIN looks at `RS`, `TL` and `ACC`: states equal in these get the same response (R99). -/
theorem exec_readVin_congr {s t u : State} (h : exec .readVin s = .next t) (hrs : u.rs = s.rs) (htl : u.tl = s.tl)
    (hacc : u.acc = s.acc) : ∃ st r, t = s.respond st r ∧ exec .readVin u = .next (u.respond st r) := by
  have hvin : vinBytes u = vinBytes s := by rw [vinBytes, htl, hacc, vinBytes]
  by_cases hr : s.rs = .complete
  · cases hv : vinBytes s with
    | some b =>
      rw [exec_readVin_of_vinBytes_eq_some hr hv] at h
      cases h
      exact ⟨_, _, rfl, exec_readVin_of_vinBytes_eq_some (hrs.trans hr) (hvin.trans hv)⟩
    | none =>
      rw [exec_readVin_of_vinBytes_eq_none hr hv] at h
      cases h
  · rw [exec_readVin_of_ne_complete hr] at h
    cases h
    exact ⟨_, _, rfl, exec_readVin_of_ne_complete (hrs ▸ hr)⟩

/-- Settles O38: a response changes nothing that READ_VIN looks at. -/
theorem readVinMayBeRepeated : Obligations.ReadVinMayBeRepeated := by
  intro s t h
  obtain ⟨st, r, rfl⟩ := exec_readVin_cases h
  exact exec_readVin_congr h rfl rfl rfl

/-! ### STATUS and RESET -/

/-- The two bytes of `bytes_le(v, 2)` have the value `v` (20_memory.md R41). -/
theorem toNat_bytesLe16 (v : BitVec 16) : (v.extractLsb' 0 8).toNat + 256 * (v.extractLsb' 8 8).toNat = v.toNat := by
  have hv := v.isLt
  rw [BitVec.extractLsb'_toNat, BitVec.extractLsb'_toNat, Nat.shiftRight_eq_div_pow, Nat.shiftRight_eq_div_pow]
  omega

/-- Settles O39: the code of `RS` phase by phase, and the nine bits of `ACC_LEN` in two bytes. -/
theorem statusReadsOutTheState : Obligations.StatusReadsOutTheState := by
  refine ⟨fun s => ?_, fun opd h => (answersIllegal_of_ne_nil h).2.1⟩
  refine ⟨s.rs.code, _, _, rfl, fun hr => by rw [hr]; rfl, fun hr => by rw [hr]; rfl, fun hr => by rw [hr]; rfl, ?_⟩
  rw [toNat_bytesLe16, BitVec.toNat_setWidth_of_le (by decide)]

/-- Settles O40: RESET answers from the cleared state. -/
theorem resetRestoresTheResetState : Obligations.ResetRestoresTheResetState :=
  ⟨fun _ => ⟨_, rfl, rfl, rfl, rfl, rfl, rfl, rfl, rfl, rfl⟩, fun _ h => (answersIllegal_of_ne_nil h).2.2⟩

end Sys2Proof.Machine
end

section
/-! PROOFS. Runs of RX commands: on which DataPacket a retrieval completes (41_reassembler.md R96), and frames that
leave no trace (R95). -/

namespace Sys2Proof.Machine

open Sys2Proof.Claims (SameBlock)

/-! ### One command of a run -/

theorem drive_nil (s : State) : drive [] s = .next { s with port := [] } := rfl

/-- A run whose first command is executed goes on from where that leaves the FCR. -/
theorem drive_cons_of_exec {s t : State} {c : Command} {rest : List Command} {i : Instr} (hw : s.cfg.wf = true)
    (hd : decode c = .instr i) (hx : exec i { s with port := rest } = .next t) : drive (c :: rest) s = drive rest t := by
  have hport : t.port = rest := (exec_keeps_cfg_port hx).2
  have hstep : step { s with port := c :: rest } = .next t := by
    rw [step_cons (s := { s with port := c :: rest }) hw rfl, hd]
    exact hx
  rw [drive_cons, hstep, andThen_next, drive, ← hport]

theorem decode_rxCommand (raw : Bytes) : decode (rxCommand raw) = .instr (.rx raw) := rfl

/-- What `matched` finds is the decoded frame with its class. -/
theorem matched_eq_some {c : Config} {raw : Bytes} {k : FrameClass} {F : Frame} (h : matched c raw = some (k, F)) :
    decodeRecord raw = some F ∧ classify c F = k := by
  unfold matched at h
  split at h
  · cases h
  · next hd =>
    split at h
    · next hc => cases h; exact ⟨hd, hc⟩
    · next hc => cases h; exact ⟨hd, hc⟩
    · cases h

/-! ### Completion -/

/-- R31 puts `RPC` at R96's number in Complete and below it in Collecting. -/
theorem Invariant.rpc_packetsNeeded {s : State} (h : Invariant s) (hr : s.rs ≠ .idle) :
    s.rpc.toNat ≤ packetsNeeded s.tl.toNat ∧ (s.rs = .complete ↔ packetsNeeded s.tl.toNat ≤ s.rpc.toNat) := by
  obtain ⟨-, -, -, hlen, -, -, hcollecting, hcomplete⟩ := h
  unfold packetsNeeded
  cases hs : s.rs with
  | idle => exact absurd hs hr
  | collecting =>
    have hlt : s.rpc.toNat < max 1 ((s.tl.toNat + 6) / 7) := by
      rcases hcollecting hs with h0 | hlt
      · rw [h0]; exact lt_max_of_lt_left Nat.one_pos
      · omega
    exact ⟨hlt.le, nofun, fun hle => absurd hle (not_le.2 hlt)⟩
  | complete =>
    obtain ⟨hpos, hle, hbound, hzero⟩ := hcomplete hs
    have heq : s.rpc.toNat = max 1 ((s.tl.toNat + 6) / 7) := by
      by_cases htl : s.tl = 0
      · rw [hzero htl, htl]; rfl
      · have := hbound htl
        omega
    exact ⟨heq.le, fun _ => heq.ge, fun _ => rfl⟩

theorem toNat_rpc_add_one {s : State} (h : s.rpc.toNat + 1 < 256) : (s.rpc + 1).toNat = s.rpc.toNat + 1 := by
  rw [BitVec.toNat_add]
  exact Nat.mod_eq_of_lt h

/-- In reference mode a DataPacket counts until R96's number is reached. -/
theorem Invariant.exists_rx_data {s : State} {raw : Bytes} {F : Frame} (h : Invariant s) (hr : s.rs ≠ .idle)
    (hmode : s.cfg.strictSeq = false) (hm : matched s.cfg raw = some (.data, F)) :
    ∃ t, exec (.rx raw) s = .next t ∧ t.tl = s.tl ∧ t.rs ≠ .idle ∧
      t.rpc.toNat = min (s.rpc.toNat + 1) (packetsNeeded s.tl.toNat) := by
  obtain ⟨hd, hc⟩ := matched_eq_some hm
  obtain ⟨hle, hcomplete⟩ := h.rpc_packetsNeeded hr
  cases hs : s.rs with
  | idle => exact absurd hs hr
  | collecting =>
    obtain ⟨t, ht, -, hrpc, htl, -, -, -, -⟩ := exists_rx_appendsChunk hd hs hc hmode (h.room hs)
    have hlt : ¬ packetsNeeded s.tl.toNat ≤ s.rpc.toNat := fun hn => by
      rw [← hcomplete, hs] at hn
      cases hn
    obtain ⟨-, -, -, -, hbound, -⟩ := h
    refine ⟨t, ht, htl, receiveRaw_rs_ne_idle ht hr, ?_⟩
    rw [hrpc, toNat_rpc_add_one (by omega)]
    omega
  | complete =>
    refine ⟨_, (exec_rx_of_decode hd s).trans (receive_of_complete F hs), rfl, hr, ?_⟩
    have := hcomplete.1 hs
    rw [State.respond_rpc]
    omega

theorem Invariant.exists_drive_data {s : State} (h : Invariant s) (raws : List Bytes) (hr : s.rs ≠ .idle)
    (hmode : s.cfg.strictSeq = false) (hdata : ∀ raw ∈ raws, ∃ D, matched s.cfg raw = some (.data, D)) :
    ∃ t, drive (raws.map rxCommand) s = .next t ∧ Invariant t ∧ t.rs ≠ .idle ∧ t.tl = s.tl ∧
      t.rpc.toNat = min (s.rpc.toNat + raws.length) (packetsNeeded s.tl.toNat) := by
  induction raws generalizing s with
  | nil => exact ⟨_, drive_nil s, h.set_port [], hr, rfl, (min_eq_left (h.rpc_packetsNeeded hr).1).symm⟩
  | cons raw raws ih =>
    obtain ⟨D, hm⟩ := hdata raw List.mem_cons_self
    have hport := h.set_port (raws.map rxCommand)
    obtain ⟨u, hu, hutl, hur, hurpc⟩ := hport.exists_rx_data hr hmode hm
    have hcfg : u.cfg = s.cfg := (exec_keeps_cfg_port hu).1
    obtain ⟨t, ht, hinv, htr, httl, htrpc⟩ := ih (exec_keeps_invariant hport hu) hur (by rw [hcfg, hmode])
      fun r hmem => by rw [hcfg]; exact hdata r (List.mem_cons_of_mem _ hmem)
    refine ⟨t, ?_, hinv, htr, httl.trans hutl, ?_⟩
    · rw [List.map_cons, drive_cons_of_exec h.cfg_wf (decode_rxCommand raw) hu, ht]
    · rw [htrpc, hutl, hurpc, List.length_cons]
      dsimp only
      omega

/-- Settles O57: `RPC` counts the packets up to R96's number, and Complete is where it stands at that number. -/
theorem retrievalCompletesOnTheAnnouncedPacket : Obligations.RetrievalCompletesOnTheAnnouncedPacket := by
  intro s raws h hr h0 hmode hdata
  have hzero : s.rpc.toNat = 0 := by rw [h0]; rfl
  obtain ⟨t, ht, hinv, htr, htl, hrpc⟩ := h.exists_drive_data raws (by rw [hr]; nofun) hmode hdata
  rw [hzero, Nat.zero_add] at hrpc
  obtain ⟨-, hcomplete⟩ := hinv.rpc_packetsNeeded htr
  refine ⟨t, ht, ?_, hrpc⟩
  rw [hcomplete, htl, hrpc]
  omega

/-! ### Noninterference -/

/-- The same FCR with other commands waiting and other responses given: R112 keeps both outside the block. -/
def State.withQueues (s : State) (p : List Command) (o : List Response) : State := { s with port := p, out := o }

theorem sameBlock_withQueues (s : State) (p : List Command) (o : List Response) : SameBlock s (s.withQueues p o) :=
  ⟨rfl, rfl, rfl, rfl, rfl, rfl⟩

/-- To carry an outcome over to other queues it is enough to compute it under both. -/
theorem exists_withQueues_of_eq {f : State → Host.Outcome State Fault Refusal} {s t u : State} {p : List Command}
    {o q : List Response} (h : f s = .next t) (hu : f s = .next u) (hq : f (s.withQueues p o) = .next (u.withQueues p q)) :
    ∃ q, f (s.withQueues p o) = .next (t.withQueues p q) := by
  cases h.symm.trans hu
  exact ⟨q, hq⟩

theorem receiveCtrl_of_complete {s : State} (F : Frame) (hr : s.rs = .complete) :
    receiveCtrl s F = .next (s.respond .ok [0x00]) := by
  rw [receiveCtrl, hr]; rfl

theorem receiveData_of_complete {s : State} (F : Frame) (hr : s.rs = .complete) :
    receiveData s F = .next (s.respond .ok [0x00]) := by
  rw [receiveData, hr]; rfl

theorem receiveCtrl_withQueues {s t : State} {F : Frame} (h : receiveCtrl s F = .next t) (p : List Command) (o : List Response) :
    ∃ q, receiveCtrl (s.withQueues p o) F = .next (t.withQueues p q) := by
  cases hr : s.rs with
  | idle => exact exists_withQueues_of_eq (f := (receiveCtrl · F)) h (receiveCtrl_of_idle F hr) (receiveCtrl_of_idle F hr)
  | collecting =>
    exact exists_withQueues_of_eq (f := (receiveCtrl · F)) h (receiveCtrl_of_collecting F hr) (receiveCtrl_of_collecting F hr)
  | complete =>
    exact exists_withQueues_of_eq (f := (receiveCtrl · F)) h (receiveCtrl_of_complete F hr) (receiveCtrl_of_complete F hr)

theorem receiveData_withQueues {s t : State} {F : Frame} (h : receiveData s F = .next t) (p : List Command) (o : List Response) :
    ∃ q, receiveData (s.withQueues p o) F = .next (t.withQueues p q) := by
  cases hr : s.rs with
  | idle => exact exists_withQueues_of_eq (f := (receiveData · F)) h (receiveData_of_idle F hr) (receiveData_of_idle F hr)
  | collecting =>
    by_cases hq : seqOk s F = true
    · rw [receiveData_of_seqOk hr hq] at h
      rw [receiveData_of_seqOk (s := s.withQueues p o) hr hq]
      obtain ⟨hroom, rfl⟩ := appendFrame_eq_next_iff.1 h
      exact ⟨_, appendFrame_eq_next_iff.2 ⟨hroom, rfl⟩⟩
    · exact exists_withQueues_of_eq (f := (receiveData · F)) h (receiveData_of_not_seqOk hr hq) (receiveData_of_not_seqOk hr hq)
  | complete =>
    exact exists_withQueues_of_eq (f := (receiveData · F)) h (receiveData_of_complete F hr) (receiveData_of_complete F hr)

/-- A received frame acts on the block alike whatever the queues hold: no row of R88's table looks at them. -/
theorem receive_withQueues {s t : State} {F : Frame} (h : receive s F = .next t) (p : List Command) (o : List Response) :
    ∃ q, receive (s.withQueues p o) F = .next (t.withQueues p q) := by
  cases hc : classify s.cfg F with
  | ctrl =>
    rw [receive_of_classify_ctrl hc] at h
    rw [receive_of_classify_ctrl (s := s.withQueues p o) hc]
    exact receiveCtrl_withQueues h p o
  | data =>
    rw [receive_of_classify_data hc] at h
    rw [receive_of_classify_data (s := s.withQueues p o) hc]
    exact receiveData_withQueues h p o
  | unm => exact exists_withQueues_of_eq (f := (receive · F)) h (receive_of_classify_unm hc) (receive_of_classify_unm hc)

/-- RX acts on the block alike whatever the queues hold. -/
theorem exec_rx_withQueues {s t : State} {raw : Bytes} (h : exec (.rx raw) s = .next t) (p : List Command) (o : List Response) :
    ∃ q, exec (.rx raw) (s.withQueues p o) = .next (t.withQueues p q) := by
  cases hd : decodeRecord raw with
  | none => exact exists_withQueues_of_eq h (receiveRaw_of_decode_eq_none hd s) (receiveRaw_of_decode_eq_none hd _)
  | some F =>
    rw [exec_rx_of_decode hd] at h ⊢
    exact receive_withQueues h p o

/-- RX of a malformed string or an unmatched frame does no more than respond (R77, R95). -/
theorem exec_rx_of_not_matched {s : State} {raw : Bytes} (h : matched s.cfg raw = none) :
    ∃ st r, exec (.rx raw) s = .next (s.respond st r) := by
  cases hd : decodeRecord raw with
  | none => exact ⟨_, _, receiveRaw_of_decode_eq_none hd s⟩
  | some F =>
    rw [exec_rx_of_decode hd]
    cases hc : classify s.cfg F with
    | unm => exact ⟨_, _, receive_of_classify_unm hc⟩
    | ctrl | data => simp [matched, hd, hc] at h

/-- A run of RX commands and the run of the matched ones among them end in one block, whatever the responses before the second. -/
theorem Invariant.exists_drive_matched {s : State} (h : Invariant s) (raws : List Bytes) (o : List Response) :
    ∃ t q, drive (raws.map rxCommand) s = .next t ∧
      drive ((raws.filter fun r => (matched s.cfg r).isSome).map rxCommand) (s.withQueues [] o) =
        .next (t.withQueues [] q) := by
  induction raws generalizing s o with
  | nil => exact ⟨_, o, drive_nil s, rfl⟩
  | cons raw raws ih =>
    have hport := h.set_port (raws.map rxCommand)
    obtain ⟨u, hu⟩ : ∃ u, exec (.rx raw) { s with port := raws.map rxCommand } = .next u := hport.exists_receiveRaw raw
    have hcfg : u.cfg = s.cfg := (exec_keeps_cfg_port hu).1
    have hfirst := drive_cons_of_exec h.cfg_wf (decode_rxCommand raw) hu
    have hrest := ih (exec_keeps_invariant hport hu)
    rw [hcfg] at hrest
    rw [List.map_cons, hfirst]
    cases hm : matched s.cfg raw with
    | some m =>
      rw [List.filter_cons_of_pos (by rw [hm]; rfl), List.map_cons]
      obtain ⟨q, hq⟩ := exec_rx_withQueues hu ((raws.filter fun r => (matched s.cfg r).isSome).map rxCommand) o
      rw [drive_cons_of_exec (s := s.withQueues [] o) h.cfg_wf (decode_rxCommand raw) hq]
      exact hrest q
    | none =>
      rw [List.filter_cons_of_neg (by rw [hm]; nofun)]
      obtain ⟨st, r, hx⟩ := exec_rx_of_not_matched (s := { s with port := raws.map rxCommand }) hm
      cases hu.symm.trans hx
      exact hrest o

/-- Settles O58: the second run starts with the responses that the first one starts with. -/
theorem foreignFramesLeaveNoTrace : Obligations.ForeignFramesLeaveNoTrace := by
  intro s raws h
  obtain ⟨t, q, ht, hu⟩ := h.exists_drive_matched raws s.out
  exact ⟨t, t.withQueues [] q, ht, hu, sameBlock_withQueues t [] q⟩

end Sys2Proof.Machine
end

section
/-! PROOFS. Errors and their causes (60_exceptions.md R112, R114, R117), and steps that execute nothing (R125, 00_scope.md R10). -/

namespace Sys2Proof.Machine

/-! ### Steps that execute nothing, and steps that never stop -/

theorem step_of_illFormed {s : State} (h : s.cfg.wf = false) : step s = .refused .illFormedConfig :=
  if_neg (by rw [h]; decide)

/-- Settles O4: both are branches of `step` (logs 4 and 7). -/
theorem stepWithoutCommandHoldsState : Obligations.StepWithoutCommandHoldsState :=
  ⟨fun _ => step_nil, fun _ => step_of_illFormed⟩

/-- Settles O55: each command that decodes answers from the invariant, and the other commands are rejected. -/
theorem noCommandStopsAReachableFcr : Obligations.NoCommandStopsAReachableFcr := fun _ => Invariant.exists_step

/-! ### Errors are precise -/

/-- A command that writes the block answers OK, so one that answers an error does no more than respond. -/
theorem eq_respond_of_exec_error {i : Instr} {s t : State} {st : Status} {r : Bytes} (hi : i.isCommand = true)
    (hx : exec i s = .next t) (hout : t.out = s.out ++ [⟨st, r⟩]) (hne : st ≠ .ok) : t = s.respond st [] := by
  obtain ⟨q, hq, hres⟩ := answeredOnce_exec hi hx
  obtain rfl : q = ⟨st, r⟩ := by simpa using hq.symm.trans hout
  obtain rfl : r = [] := hres hne
  rcases exec_cases hx with ⟨st', r', rfl⟩ | ⟨F, o, -, rfl⟩ | ⟨F, o, -, -, rfl⟩ | rfl | ⟨o, rfl⟩
  · obtain ⟨rfl, rfl⟩ := out_append_inj hout
    rfl
  · exact absurd (out_append_inj hout).1.symm hne
  · exact absurd (out_append_inj hout).1.symm hne
  · exact absurd (out_append_inj hout).1.symm hne
  · simp at hout

/-- Settles O48: a rejected command writes nothing, and an executed one that answers an error only responds. -/
theorem errorsArePrecise : Obligations.ErrorsArePrecise := by
  intro s t c rest st r hp h hout hne
  obtain ⟨-, ⟨hnil, -⟩ | ⟨c', rest', hp', hstep⟩⟩ := step_cases h
  · rw [hp] at hnil; cases hnil
  · rw [hp] at hp'; cases hp'
    rcases hstep with ⟨i, hd, hx⟩ | ⟨-, rfl⟩
    · exact eq_respond_of_exec_error (decode_isCommand hd) hx hout hne
    · obtain ⟨rfl, -⟩ := out_append_inj hout
      rfl

/-! ### The status of a command -/

/-- The status a command of the block is answered with, from its operand and `RS` alone (R114). -/
def instrStatus (s : State) : Instr → Status
  | .encode id len pl => if encodeRefused id len pl then .invalidPayload else .ok
  | .decode raw => if raw.length = 16 then .ok else .malformedFrame
  | .rx raw => if raw.length = 16 then .ok else .malformedFrame
  | .readVin => if s.rs = .complete then .ok else .notComplete
  | .reserved00 _ => .illegalCommand
  | .reserved08 _ _ => .illegalCommand
  | .reserved10 _ _ => .illegalCommand
  | .reserved20 _ _ => .illegalCommand
  | .reserved40 _ _ => .illegalCommand
  | .reserved80 _ _ => .illegalCommand
  | _ => .ok

/-- The one response given has the status `st`. -/
def AnsweredWith (st : Status) (s t : State) : Prop := ∃ b, t.out = s.out ++ [⟨st, b⟩]

theorem answeredWith_respond (s : State) (st : Status) (b : Bytes) : AnsweredWith st s (s.respond st b) := ⟨b, rfl⟩

theorem exec_encode_status {id : BitVec 32} {len : Byte} {pl : Bytes} {s t : State} (h : exec (.encode id len pl) s = .next t) :
    AnsweredWith (instrStatus s (.encode id len pl)) s t := by
  cases hr : encodeRefused id len pl with
  | true =>
    rw [exec_encode_of_eq_none ((encodeRecord_eq_none_iff id len pl).2 ((encodeRefused_iff id len pl).1 hr))] at h
    cases h
    rw [instrStatus, hr]
    exact answeredWith_respond s _ _
  | false =>
    rw [exec_encode_of_eq_some (by rw [encodeRecord, hr]; rfl)] at h
    cases h
    rw [instrStatus, hr]
    exact answeredWith_respond s _ _

theorem exec_decode_status {raw : Bytes} {s t : State} (h : exec (.decode raw) s = .next t) :
    AnsweredWith (instrStatus s (.decode raw)) s t := by
  by_cases hlen : raw.length = 16
  · rw [exec_decode_of_eq_some (decodeRecord_of_length hlen)] at h
    cases h
    rw [instrStatus, if_pos hlen]
    exact answeredWith_respond s _ _
  · rw [exec_decode_of_eq_none ((decodeRecord_eq_none_iff raw).2 hlen)] at h
    cases h
    rw [instrStatus, if_neg hlen]
    exact answeredWith_respond s _ _

theorem exec_rx_status {raw : Bytes} {s t : State} (h : exec (.rx raw) s = .next t) :
    AnsweredWith (instrStatus s (.rx raw)) s t := by
  rcases receiveRaw_cases h with ⟨hlen, rfl⟩ | ⟨F, hd, hF⟩
  · rw [instrStatus, if_neg hlen]
    exact answeredWith_respond s _ _
  · rw [instrStatus, if_pos (decodeRecord_length hd)]
    exact receive_status_ok hF

theorem exec_readVin_status {s t : State} (h : exec .readVin s = .next t) : AnsweredWith (instrStatus s .readVin) s t := by
  by_cases hr : s.rs = .complete
  · rw [instrStatus, if_pos hr]
    cases hv : vinBytes s with
    | some b =>
      rw [exec_readVin_of_vinBytes_eq_some hr hv] at h
      cases h
      exact answeredWith_respond s _ _
    | none =>
      rw [exec_readVin_of_vinBytes_eq_none hr hv] at h
      cases h
  · rw [exec_readVin_of_ne_complete hr] at h
    cases h
    rw [instrStatus, if_neg hr]
    exact answeredWith_respond s _ _

theorem exec_status {i : Instr} {s t : State} (hi : i.isCommand = true) (h : exec i s = .next t) :
    AnsweredWith (instrStatus s i) s t := by
  cases i with
  | encode => exact exec_encode_status h
  | decode => exact exec_decode_status h
  | rx => exact exec_rx_status h
  | readVin => exact exec_readVin_status h
  | buildReq | status | reset | reserved00 | reserved08 | reserved10 | reserved20 | reserved40 | reserved80 =>
    cases h
    exact ⟨_, rfl⟩
  | frameCtrl | frameData | frameUnm | rxf | rxw | begin => cases hi

/-! ### The causes of a status -/

/-- `st` is each error status exactly where R114 lists a cause of it for the command `c` in the state `s`. -/
def HasItsCauses (s : State) (c : Command) (st : Status) : Prop :=
  (st = .illegalCommand ↔
    c.op = 0x00 ∨ 0x08 ≤ c.op.toNat ∨ (c.op = 0x01 ∧ c.opd.length < 5) ∨ (c.op = 0x03 ∧ c.opd.length ≠ 1) ∨
      ((c.op = 0x05 ∨ c.op = 0x06 ∨ c.op = 0x07) ∧ c.opd.length ≠ 0)) ∧
  (st = .invalidPayload ↔
    c.op = 0x01 ∧ 5 ≤ c.opd.length ∧ (13 < c.opd.length ∨ 8 < (byteAt c.opd 4).toNat ∨
      2 ^ 29 ≤ (le32 (byteAt c.opd 0) (byteAt c.opd 1) (byteAt c.opd 2) (byteAt c.opd 3)).toNat)) ∧
  (st = .malformedFrame ↔ (c.op = 0x02 ∨ c.op = 0x04) ∧ c.opd.length ≠ 16) ∧
  (st = .notComplete ↔ c.op = 0x05 ∧ c.opd = [] ∧ s.rs ≠ .complete)

/-- The refusal of ENCODE (R74) in bytes of the command's operand. -/
theorem encodeRefused_iff_operand (id : BitVec 32) (len : Byte) (pl : Bytes) :
    encodeRefused id len pl = true ↔
      13 < (bytesLe32 id ++ len :: pl).length ∨ 8 < (byteAt (bytesLe32 id ++ len :: pl) 4).toNat ∨
        2 ^ 29 ≤ (le32 (byteAt (bytesLe32 id ++ len :: pl) 0) (byteAt (bytesLe32 id ++ len :: pl) 1)
          (byteAt (bytesLe32 id ++ len :: pl) 2) (byteAt (bytesLe32 id ++ len :: pl) 3)).toNat := by
  have hword : le32 (byteAt (bytesLe32 id ++ len :: pl) 0) (byteAt (bytesLe32 id ++ len :: pl) 1)
      (byteAt (bytesLe32 id ++ len :: pl) 2) (byteAt (bytesLe32 id ++ len :: pl) 3) = id := le32_of_bytes id
  have hlen : byteAt (bytesLe32 id ++ len :: pl) 4 = len := rfl
  have hlength : (bytesLe32 id ++ len :: pl).length = pl.length + 5 := rfl
  rw [hword, hlen, hlength, encodeRefused_iff]
  omega

theorem hasItsCauses_encode (s : State) (id : BitVec 32) (len : Byte) (pl : Bytes) :
    HasItsCauses s ⟨0x01, bytesLe32 id ++ len :: pl⟩ (instrStatus s (.encode id len pl)) := by
  have hlength : (bytesLe32 id ++ len :: pl).length = pl.length + 5 := rfl
  unfold HasItsCauses
  rw [← encodeRefused_iff_operand, instrStatus, hlength]
  cases encodeRefused id len pl <;> simp

theorem hasItsCauses_reserved {op : Byte} (hop : op = 0x00 ∨ 0x08 ≤ op.toNat) (s : State) (opd : Bytes) :
    HasItsCauses s ⟨op, opd⟩ .illegalCommand := by
  have hne : op ≠ 0x01 ∧ op ≠ 0x02 ∧ op ≠ 0x04 ∧ op ≠ 0x05 := by bv_omega
  obtain ⟨h1, h2, h4, h5⟩ := hne
  exact ⟨iff_of_true rfl (or_assoc.1 (.inl hop)), iff_of_false nofun fun ⟨h, _⟩ => h1 h,
    iff_of_false nofun fun ⟨h, _⟩ => h.elim h2 h4, iff_of_false nofun fun ⟨h, _⟩ => h5 h⟩

theorem instrStatus_decodeReserved (s : State) (op : Byte) (opd : Bytes) :
    instrStatus s (decodeReserved op opd) = .illegalCommand := by
  unfold decodeReserved
  split_ifs <;> rfl

/-- An executed command, opcode by opcode. -/
theorem hasItsCauses_of_decode {c : Command} {i : Instr} (h : decode c = .instr i) (s : State) :
    HasItsCauses s c (instrStatus s i) := by
  obtain ⟨op, opd⟩ := c
  rcases op_cases op with rfl | rfl | rfl | rfl | rfl | rfl | rfl | hop
  · obtain ⟨id, len, pl, rfl, rfl⟩ := decodeEncode_eq_instr h
    exact hasItsCauses_encode s id len pl
  · cases h
    by_cases hlen : opd.length = 16 <;> simp [HasItsCauses, instrStatus, hlen]
  · obtain ⟨sa, rfl, rfl⟩ := decodeBuildReq_eq_instr h
    simp [HasItsCauses, instrStatus]
  · cases h
    by_cases hlen : opd.length = 16 <;> simp [HasItsCauses, instrStatus, hlen]
  · obtain ⟨rfl, rfl⟩ := decodeNoOperand_eq_instr_iff.1 h
    by_cases hr : s.rs = .complete <;> simp [HasItsCauses, instrStatus, hr]
  · obtain ⟨rfl, rfl⟩ := decodeNoOperand_eq_instr_iff.1 h
    simp [HasItsCauses, instrStatus]
  · obtain ⟨rfl, rfl⟩ := decodeNoOperand_eq_instr_iff.1 h
    simp [HasItsCauses, instrStatus]
  · rw [decode_of_reserved hop] at h
    cases h
    rw [instrStatus_decodeReserved]
    exact hasItsCauses_reserved hop s opd

theorem length_lt_of_decodeEncode_eq_reject {opd : Bytes} {r : Reject} (h : decodeEncode opd = .reject r) : opd.length < 5 := by
  match opd, h with
  | [], _ | [_], _ | [_, _], _ | [_, _, _], _ | [_, _, _, _], _ => simp
  | _ :: _ :: _ :: _ :: _ :: _, h => cases h

theorem length_ne_of_decodeBuildReq_eq_reject {opd : Bytes} {r : Reject} (h : decodeBuildReq opd = .reject r) :
    opd.length ≠ 1 := by
  intro hlen
  obtain ⟨sa, rfl⟩ := List.length_eq_one_iff.1 hlen
  cases h

theorem ne_nil_of_decodeNoOperand_eq_reject {op : Byte} {i : Instr} {opd : Bytes} {r : Reject}
    (h : decodeNoOperand op i opd = .reject r) : opd ≠ [] := by
  rintro rfl
  cases h

/-- A rejected command, opcode by opcode: only a wrong operand length is rejected (R67). -/
theorem hasItsCauses_of_reject {c : Command} {r : Reject} (h : decode c = .reject r) (s : State) :
    HasItsCauses s c .illegalCommand := by
  obtain ⟨op, opd⟩ := c
  rcases op_cases op with rfl | rfl | rfl | rfl | rfl | rfl | rfl | hop
  · have hlen := length_lt_of_decodeEncode_eq_reject h
    simp [HasItsCauses, hlen]
  · cases h
  · have hlen := length_ne_of_decodeBuildReq_eq_reject h
    simp [HasItsCauses, hlen]
  · cases h
  · have hne := ne_nil_of_decodeNoOperand_eq_reject h
    simp [HasItsCauses, hne]
  · have hne := ne_nil_of_decodeNoOperand_eq_reject h
    simp [HasItsCauses, hne]
  · have hne := ne_nil_of_decodeNoOperand_eq_reject h
    simp [HasItsCauses, hne]
  · exact hasItsCauses_reserved hop s opd

/-- Settles O50: a command is executed or rejected, and either way the one status it is answered with has its causes. -/
theorem statusesHaveTheirCauses : Obligations.StatusesHaveTheirCauses := by
  rintro s t c rest ⟨st, result⟩ hp h hout
  suffices hst : HasItsCauses s c st from hst
  obtain ⟨-, ⟨hnil, -⟩ | ⟨c', rest', hp', hstep⟩⟩ := step_cases h
  · rw [hp] at hnil; cases hnil
  · rw [hp] at hp'; cases hp'
    rcases hstep with ⟨i, hd, hx⟩ | ⟨⟨_, hd⟩, rfl⟩
    · obtain ⟨b, hb⟩ := exec_status (decode_isCommand hd) hx
      obtain ⟨rfl, -⟩ := out_append_inj (hout.symm.trans hb)
      exact hasItsCauses_of_decode hd s
    · obtain ⟨rfl, -⟩ := out_append_inj hout
      exact hasItsCauses_of_reject hd s

end Sys2Proof.Machine
end

section
/-! PROOFS. Power-on and RESET (70_reset_and_hazards.md R127, R128): the reset values, and that nothing from before a RESET
shows after it. -/

namespace Sys2Proof.Machine

open Sys2Proof.Claims (SameBlock)

/-! ### The reset values -/

/-- Settles O1: `State.create` builds nothing but `State.resetWith`, and the reset state is one of these. -/
theorem newFcrHoldsResetState : Obligations.NewFcrHoldsResetState := by
  refine ⟨fun a s hs => ?_, rfl, rfl, rfl, rfl, rfl, fun _ => rfl⟩
  obtain ⟨c, -, rfl⟩ := State.create_eq_some_iff.1 hs
  exact ⟨rfl, rfl, rfl, rfl, rfl, fun _ => rfl⟩

/-- Settles O41: `State.clear` and `State.resetWith` write the same values into the six elements of R20. -/
theorem resetIsPowerOn : Obligations.ResetIsPowerOn :=
  fun _ => ⟨_, rfl, ⟨rfl, rfl, rfl, rfl, rfl, rfl⟩, rfl⟩

/-! ### Responses given before a command -/

/-- The same FCR with the responses `o` given before all others. -/
def State.withPast (s : State) (o : List Response) : State := { s with out := o ++ s.out }

/-- The outcome of a command or a run, with the responses `o` given before it. -/
def underPast (o : List Response) (x : Host.Outcome State Fault Refusal) : Host.Outcome State Fault Refusal :=
  andThen x fun t => .next (t.withPast o)

theorem andThen_eq_next_iff {x : Host.Outcome State Fault Refusal} {f : State → Host.Outcome State Fault Refusal} {t : State} :
    andThen x f = .next t ↔ ∃ u, x = .next u ∧ f u = .next t := by
  cases x <;> simp [andThen]

theorem underPast_eq_next_iff {o : List Response} {x : Host.Outcome State Fault Refusal} {t : State} :
    underPast o x = .next t ↔ ∃ u, x = .next u ∧ u.withPast o = t := by
  simp [underPast, andThen_eq_next_iff]

/-- A response goes after those already given, so it does not matter what these are. -/
theorem underPast_respond (o : List Response) (s : State) (st : Status) (r : Bytes) :
    underPast o (.next (s.respond st r)) = .next ((s.withPast o).respond st r) := by
  simp [underPast, State.withPast, State.respond]

theorem receiveCtrl_withPast (s : State) (F : Frame) (o : List Response) :
    receiveCtrl (s.withPast o) F = underPast o (receiveCtrl s F) := by
  cases hr : s.rs with
  | idle =>
    rw [receiveCtrl_of_idle (s := s.withPast o) F hr, receiveCtrl_of_idle F hr, underPast_respond]
    rfl
  | collecting =>
    rw [receiveCtrl_of_collecting (s := s.withPast o) F hr, receiveCtrl_of_collecting F hr, underPast_respond]
    rfl
  | complete =>
    rw [receiveCtrl_of_complete (s := s.withPast o) F hr, receiveCtrl_of_complete F hr, underPast_respond]

theorem appendFrame_withPast (s : State) (F : Frame) (o : List Response) :
    appendFrame (s.withPast o) F = underPast o (appendFrame s F) := by
  by_cases hroom : s.accLen.toNat + 7 ≤ 259
  · rw [appendFrame_eq_next_iff.2 ⟨hroom, rfl⟩, underPast_respond]
    exact appendFrame_eq_next_iff.2 ⟨hroom, rfl⟩
  · rw [appendFrame_of_no_room (s := s.withPast o) F (not_le.1 hroom), appendFrame_of_no_room F (not_le.1 hroom)]
    rfl

theorem receiveData_withPast (s : State) (F : Frame) (o : List Response) :
    receiveData (s.withPast o) F = underPast o (receiveData s F) := by
  cases hr : s.rs with
  | idle => rw [receiveData_of_idle (s := s.withPast o) F hr, receiveData_of_idle F hr, underPast_respond]
  | collecting =>
    by_cases hq : seqOk s F = true
    · rw [receiveData_of_seqOk (s := s.withPast o) hr hq, receiveData_of_seqOk hr hq, appendFrame_withPast]
    · rw [receiveData_of_not_seqOk (s := s.withPast o) hr hq, receiveData_of_not_seqOk hr hq, underPast_respond]
  | complete => rw [receiveData_of_complete (s := s.withPast o) F hr, receiveData_of_complete F hr, underPast_respond]

theorem receive_withPast (s : State) (F : Frame) (o : List Response) :
    receive (s.withPast o) F = underPast o (receive s F) := by
  cases hc : classify s.cfg F with
  | ctrl => rw [receive_of_classify_ctrl (s := s.withPast o) hc, receive_of_classify_ctrl hc, receiveCtrl_withPast]
  | data => rw [receive_of_classify_data (s := s.withPast o) hc, receive_of_classify_data hc, receiveData_withPast]
  | unm => rw [receive_of_classify_unm (s := s.withPast o) hc, receive_of_classify_unm hc, underPast_respond]

theorem exec_readVin_withPast (s : State) (o : List Response) :
    exec .readVin (s.withPast o) = underPast o (exec .readVin s) := by
  by_cases hr : s.rs = .complete
  · cases hv : vinBytes s with
    | some b =>
      rw [exec_readVin_of_vinBytes_eq_some (s := s.withPast o) hr hv, exec_readVin_of_vinBytes_eq_some hr hv,
        underPast_respond]
    | none =>
      rw [exec_readVin_of_vinBytes_eq_none (s := s.withPast o) hr hv, exec_readVin_of_vinBytes_eq_none hr hv]
      rfl
  · rw [exec_readVin_of_ne_complete (s := s.withPast o) hr, exec_readVin_of_ne_complete hr, underPast_respond]

/-- No command of the block looks at the responses given (60_exceptions.md R112). -/
theorem exec_withPast {i : Instr} (hi : i.isCommand = true) (s : State) (o : List Response) :
    exec i (s.withPast o) = underPast o (exec i s) := by
  cases i with
  | encode id len pl =>
    cases hr : encodeRecord id len pl with
    | some r => rw [exec_encode_of_eq_some hr, exec_encode_of_eq_some hr, underPast_respond]
    | none => rw [exec_encode_of_eq_none hr, exec_encode_of_eq_none hr, underPast_respond]
  | decode raw =>
    cases hd : decodeRecord raw with
    | some F => rw [exec_decode_of_eq_some hd, exec_decode_of_eq_some hd, underPast_respond]
    | none => rw [exec_decode_of_eq_none hd, exec_decode_of_eq_none hd, underPast_respond]
  | rx raw =>
    cases hd : decodeRecord raw with
    | some F => rw [exec_rx_of_decode hd, exec_rx_of_decode hd, receive_withPast]
    | none =>
      rw [exec_rx, exec_rx, receiveRaw_of_decode_eq_none hd, receiveRaw_of_decode_eq_none hd, underPast_respond]
  | readVin => exact exec_readVin_withPast s o
  | reset => exact (underPast_respond o s.clear _ _).symm
  | buildReq | status | reserved00 | reserved08 | reserved10 | reserved20 | reserved40 | reserved80 =>
    exact (underPast_respond o s _ _).symm
  | frameCtrl | frameData | frameUnm | rxf | rxw | begin => cases hi

theorem step_withPast (s : State) (o : List Response) : step (s.withPast o) = underPast o (step s) := by
  cases hw : s.cfg.wf with
  | false =>
    rw [step_of_illFormed (s := s.withPast o) hw, step_of_illFormed hw]
    rfl
  | true =>
    cases hp : s.port with
    | nil =>
      rw [step_nil (s := s.withPast o) hw hp, step_nil hw hp]
      rfl
    | cons c rest =>
      rw [step_cons (s := s.withPast o) hw hp, step_cons hw hp]
      cases hd : decode c with
      | instr i => exact exec_withPast (decode_isCommand hd) { s with port := rest } o
      | reject r => exact (underPast_respond o { s with port := rest } _ _).symm

theorem runSteps_withPast (n : Nat) (s : State) (o : List Response) :
    runSteps n (s.withPast o) = underPast o (runSteps n s) := by
  induction n generalizing s with
  | zero => rfl
  | succ n ih =>
    rw [runSteps, step_withPast, runSteps]
    cases step s with
    | next t => exact ih t
    | fault r => rfl
    | refused r => rfl

/-! ### A run that begins with RESET -/

theorem drive_reset {s : State} (hw : s.cfg.wf = true) (cs : List Command) :
    drive (⟨0x07, []⟩ :: cs) s = runSteps cs.length ({ s with port := cs }.clear.respond .ok []) := by
  rw [drive_cons, step_cons (s := { s with port := ⟨0x07, []⟩ :: cs }) hw rfl]
  rfl

/-- From a RESET on an FCR runs as one just built with its configuration does, past responses aside (R128). -/
theorem drive_reset_eq_underPast {s : State} (hw : s.cfg.wf = true) (cs : List Command) :
    drive (⟨0x07, []⟩ :: cs) s = underPast s.out (drive (⟨0x07, []⟩ :: cs) (State.resetWith s.cfg)) := by
  rw [drive_reset hw, drive_reset (s := State.resetWith s.cfg) hw, ← runSteps_withPast]
  rfl

/-- Settles O42: both runs are the run of one FCR just built, under two pasts. -/
theorem resetErasesThePast : Obligations.ResetErasesThePast := by
  intro s u t v cs hcfg hw ht hv
  have hwu : u.cfg.wf = true := hcfg ▸ hw
  rw [drive_reset_eq_underPast hw] at ht
  rw [drive_reset_eq_underPast hwu, ← hcfg] at hv
  obtain ⟨x, hx, rfl⟩ := underPast_eq_next_iff.1 ht
  obtain ⟨y, hy, rfl⟩ := underPast_eq_next_iff.1 hv
  cases hx.symm.trans hy
  exact ⟨⟨rfl, rfl, rfl, rfl, rfl, rfl⟩, x.out, rfl, rfl⟩

end Sys2Proof.Machine
end

section
/-! PROOFS. The retrieval of 70_reset_and_hazards.md R129, command by command: how far it has come, what it has gathered, and
the VIN it reads out. -/

namespace Sys2Proof.Machine

/-! ### Responses of a run -/

/-- A run over the commands presented answers each once (30_encoding.md R62). -/
theorem exists_responses_of_runSteps {cs : List Command} {s t : State} (hp : s.port = cs)
    (h : runSteps cs.length s = .next t) : ∃ rs, rs.length = cs.length ∧ t.out = s.out ++ rs := by
  induction cs generalizing s with
  | nil => cases h; exact ⟨[], rfl, (List.append_nil _).symm⟩
  | cons c cs ih =>
    obtain ⟨u, hu, ht⟩ := andThen_eq_next_iff.1 h
    obtain ⟨hport, -, r, hout, -⟩ := step_answers_command hp hu
    obtain ⟨rs, hlen, hrs⟩ := ih hport ht
    exact ⟨r :: rs, congrArg Nat.succ hlen, by rw [hrs, hout, List.append_assoc, List.singleton_append]⟩

theorem exists_responses_of_drive {cs : List Command} {s t : State} (h : drive cs s = .next t) :
    ∃ rs, rs.length = cs.length ∧ t.out = s.out ++ rs :=
  exists_responses_of_runSteps (s := { s with port := cs }) rfl h

/-! ### The bytes of `ACC` -/

/-- The accumulator holds exactly the byte string `b`, from address 0 (10_state.md R26). -/
def Spells (s : State) (b : Bytes) : Prop := ∀ a, cellGet s.acc a = b[a]?

theorem Spells.append {s : State} {b : Bytes} (h : Spells s b) (hlen : s.accLen.toNat = b.length) (F : Frame) :
    Spells (s.append F) (b ++ chunk F) := by
  intro a
  rw [State.append_acc, cellGet_cellsWrite, hlen]
  split_ifs with ha
  · obtain ⟨hle, hlt⟩ := ha
    rw [List.getElem?_append_right hle, List.getD_eq_getElem _ _ (by omega), List.getElem?_eq_getElem]
  · rw [h a]
    by_cases hle : b.length ≤ a
    · rw [List.getElem?_eq_none hle, List.getElem?_eq_none (by rw [List.length_append]; omega)]
    · rw [List.getElem?_append_left (not_le.1 hle)]

theorem cellsRead_eq_take {m : List Host.Cell} {a n : Nat} {b : Bytes} (h : ∀ j, cellGet m (a + j) = b[j]?)
    (hn : n ≤ b.length) : cellsRead m a n = some (b.take n) := by
  induction n generalizing a b with
  | zero => rfl
  | succ n ih =>
    cases b with
    | nil => cases hn
    | cons v b =>
      have hv : cellGet m a = some v := h 0
      have hrest : cellsRead m (a + 1) n = some (b.take n) :=
        ih (fun j => by rw [Nat.add_assoc, Nat.add_comm 1 j]; exact h (j + 1)) (Nat.le_of_succ_le_succ hn)
      rw [cellsRead, hv, Option.bind_some, hrest]
      rfl

/-- READ_VIN reads the first `min(TL, 17)` bytes of what `ACC` spells (41_reassembler.md R99). -/
theorem Spells.vinBytes {s : State} {b : Bytes} (h : Spells s b) (htl : s.tl.toNat ≤ b.length) :
    vinBytes s = some (b.take (min s.tl.toNat 17)) :=
  cellsRead_eq_take (fun j => by rw [Nat.zero_add]; exact h j) ((min_le_left _ _).trans htl)

theorem length_flatMap_chunk (datas : List Frame) : (datas.flatMap chunk).length = 7 * datas.length := by
  induction datas with
  | nil => rfl
  | cons D datas ih => rw [List.flatMap_cons, List.length_append, ih, chunk_length, List.length_cons]; omega

theorem le_seven_mul_packetsNeeded (tl : Nat) : tl ≤ 7 * packetsNeeded tl := by
  unfold packetsNeeded
  omega

/-! ### How far a retrieval has come -/

/-- Since the ControlPacket `C` the chunks of the DataPackets `done` have been appended, and nothing else (R87, R91). -/
def Gathered (C : Frame) (done : List Frame) (s : State) : Prop :=
  s.tl = totalLength C ∧ s.rpc.toNat = done.length ∧ Spells s (done.flatMap chunk)

/-- The state of a retrieval in which the matched frames `ms` are still to come: before the ControlPacket `C`, between its
DataPackets `datas`, or with all of these appended. -/
def Stage (C : Frame) (datas : List Frame) (ms : List (FrameClass × Frame)) (s : State) : Prop :=
  (s.rs = .idle ∧ ∃ early late,
    ms = List.map (Prod.mk .data) early ++ (.ctrl, C) :: datas.map (Prod.mk .data) ++ late) ∨
  (s.rs = .collecting ∧ ∃ done todo late,
    datas = done ++ todo ∧ ms = todo.map (Prod.mk .data) ++ late ∧ Gathered C done s) ∨
  (s.rs = .complete ∧ Gathered C datas s)

/-- In strict mode the DataPackets are numbered from 1 (R94). -/
def Numbered (c : Config) (datas : List Frame) : Prop :=
  c.strictSeq = true → ∀ j, j < datas.length → (datas.map sequenceNumber)[j]?.map BitVec.toNat = some (j + 1)

section

variable {C : Frame} {datas : List Frame} {ms : List (FrameClass × Frame)} {m : FrameClass × Frame} {s t : State}

/-- A retrieval does not look at the queues. -/
theorem Stage.respond (h : Stage C datas ms s) (st : Status) (r : Bytes) : Stage C datas ms (s.respond st r) := h

theorem Stage.set_port (h : Stage C datas ms s) (cs : List Command) : Stage C datas ms { s with port := cs } := h

theorem gathered_start (C : Frame) (s : State) : Gathered C [] (s.start C) := ⟨rfl, rfl, fun _ => rfl⟩

/-- The next DataPacket is appended after the chunks already there (R91). -/
theorem Gathered.append {done : List Frame} (h : Gathered C done s) (hinv : Invariant s) (D : Frame) :
    Gathered C (done ++ [D]) (s.append D) := by
  obtain ⟨htl, hrpc, hspells⟩ := h
  obtain ⟨-, -, -, hlen, hbound, -⟩ := hinv
  refine ⟨htl, ?_, ?_⟩
  · rw [State.append_rpc, toNat_rpc_add_one (by omega), hrpc, List.length_append, List.length_singleton]
  · rw [List.flatMap_append, List.flatMap_singleton]
    exact hspells.append (by rw [hlen, hrpc, length_flatMap_chunk]) D

/-- The DataPacket after `done` has the number that strict mode asks for (R94). -/
theorem Gathered.seqOk {done todo : List Frame} {D : Frame} (h : Gathered C done s)
    (hnum : Numbered s.cfg (done ++ D :: todo)) : seqOk s D = true := by
  obtain ⟨-, hrpc, -⟩ := h
  rw [seqOk_iff, hrpc, ← Bool.not_eq_true, ← imp_iff_not_or]
  intro hstrict
  simpa [sequenceNumber] using hnum hstrict done.length (by simp)

/-- R96: the announced DataPackets are all gathered exactly where the FCR is in Complete. -/
theorem Gathered.complete_iff {done todo : List Frame} (h : Gathered C done s) (hinv : Invariant s) (hr : s.rs ≠ .idle)
    (hneed : (done ++ todo).length = packetsNeeded (totalLength C).toNat) : s.rs = .complete ↔ todo = [] := by
  obtain ⟨htl, hrpc, -⟩ := h
  obtain ⟨-, hcomplete⟩ := hinv.rpc_packetsNeeded hr
  rw [hcomplete, htl, ← hneed, hrpc, List.length_append, ← List.length_eq_zero_iff]
  omega

/-- Before the ControlPacket a DataPacket is ignored, and the ControlPacket starts the collection (R89). -/
theorem exists_receive_of_idle {early : List Frame} {late : List (FrameClass × Frame)} (hr : s.rs = .idle)
    (hc : classify s.cfg m.2 = m.1)
    (hms : m :: ms = early.map (Prod.mk .data) ++ (.ctrl, C) :: datas.map (Prod.mk .data) ++ late) :
    ∃ t, receive s m.2 = .next t ∧ Stage C datas ms t := by
  cases early with
  | nil =>
    cases hms
    rw [receive_of_classify_ctrl hc, receiveCtrl_of_idle C hr]
    exact ⟨_, rfl, .inr (.inl ⟨rfl, [], datas, late, rfl, rfl, gathered_start C s⟩)⟩
  | cons D early =>
    cases hms
    rw [receive_of_classify_data hc, receiveData_of_idle D hr]
    exact ⟨_, rfl, .inl ⟨hr, early, late, rfl⟩⟩

/-- Between the DataPackets the next one is appended, and with the last the FCR is in Complete (R91, R92, R96). -/
theorem exists_receive_of_collecting {done todo : List Frame} {late : List (FrameClass × Frame)} (hinv : Invariant s)
    (hr : s.rs = .collecting) (hg : Gathered C done s) (hc : classify s.cfg m.2 = m.1)
    (hneed : (done ++ todo).length = packetsNeeded (totalLength C).toNat) (hnum : Numbered s.cfg (done ++ todo))
    (hms : m :: ms = todo.map (Prod.mk .data) ++ late) :
    ∃ t, receive s m.2 = .next t ∧ Stage C (done ++ todo) ms t := by
  cases todo with
  | nil =>
    have hcomplete := (hg.complete_iff hinv (by rw [hr]; nofun) hneed).2 rfl
    rw [hr] at hcomplete
    cases hcomplete
  | cons D todo =>
    cases hms
    have hinv' := hinv.append hr D
    have hg' := hg.append hinv D
    have hsplit : done ++ D :: todo = (done ++ [D]) ++ todo := List.append_cons done D todo
    have hcomplete := hg'.complete_iff hinv' (append_rs_ne_idle s D) (hsplit ▸ hneed)
    rw [receive_of_classify_data hc, receiveData_of_seqOk hr (hg.seqOk hnum)]
    refine ⟨_, appendFrame_eq_next_iff.2 ⟨hinv.room hr, rfl⟩, Stage.respond ?_ _ _⟩
    rw [hsplit]
    cases hr' : (s.append D).rs with
    | idle => exact absurd hr' (append_rs_ne_idle s D)
    | collecting => exact .inr (.inl ⟨hr', done ++ [D], todo, late, rfl, rfl, hg'⟩)
    | complete =>
      obtain rfl := hcomplete.1 hr'
      rw [List.append_nil]
      exact .inr (.inr ⟨hr', hg'⟩)

/-- A matched frame takes the retrieval one step on. -/
theorem Stage.exists_rx {raw : Bytes} (h : Stage C datas (m :: ms) s) (hinv : Invariant s)
    (hneed : datas.length = packetsNeeded (totalLength C).toNat) (hnum : Numbered s.cfg datas)
    (hm : matched s.cfg raw = some m) : ∃ t, exec (.rx raw) s = .next t ∧ Stage C datas ms t := by
  obtain ⟨hd, hc⟩ := matched_eq_some hm
  rw [exec_rx_of_decode hd]
  rcases h with ⟨hr, early, late, hms⟩ | ⟨hr, done, todo, late, rfl, hms, hg⟩ | ⟨hr, hg⟩
  · exact exists_receive_of_idle hr hc hms
  · exact exists_receive_of_collecting hinv hr hg hc hneed hnum hms
  · exact ⟨_, receive_of_complete m.2 hr, .inr (.inr ⟨hr, hg⟩)⟩

/-- With no matched frame to come the retrieval is complete. -/
theorem Stage.complete_of_nil (h : Stage C datas [] s) (hinv : Invariant s)
    (hneed : datas.length = packetsNeeded (totalLength C).toNat) : s.rs = .complete ∧ Gathered C datas s := by
  rcases h with ⟨-, early, late, hms⟩ | ⟨hr, done, todo, late, rfl, hms, hg⟩ | h
  · simp at hms
  · obtain ⟨htodo, -⟩ := List.append_eq_nil_iff.1 hms.symm
    have hcomplete := (hg.complete_iff hinv (by rw [hr]; nofun) hneed).2 (List.map_eq_nil_iff.1 htodo)
    rw [hr] at hcomplete
    cases hcomplete
  · exact h

/-- The RX commands of a retrieval, with malformed and unmatched strings among them, take it to its end; `rest` is what the
host presents after them. -/
theorem Stage.exists_drive_rx {raws : List Bytes} (h : Stage C datas (raws.filterMap (matched s.cfg)) s)
    (hinv : Invariant s) (hneed : datas.length = packetsNeeded (totalLength C).toNat) (hnum : Numbered s.cfg datas)
    (rest : List Command) :
    ∃ t, drive (raws.map rxCommand ++ rest) s = drive rest t ∧ Invariant t ∧ t.rs = .complete ∧ Gathered C datas t := by
  induction raws generalizing s with
  | nil => exact ⟨s, rfl, hinv, h.complete_of_nil hinv hneed⟩
  | cons raw raws ih =>
    have hport := hinv.set_port (raws.map rxCommand ++ rest)
    obtain ⟨u, hu, hstage⟩ : ∃ u, exec (.rx raw) { s with port := raws.map rxCommand ++ rest } = .next u ∧
        Stage C datas (raws.filterMap (matched s.cfg)) u := by
      cases hm : matched s.cfg raw with
      | none =>
        rw [List.filterMap_cons_none hm] at h
        obtain ⟨st, r, hx⟩ := exec_rx_of_not_matched (s := { s with port := raws.map rxCommand ++ rest }) hm
        exact ⟨_, hx, h⟩
      | some m =>
        rw [List.filterMap_cons_some hm] at h
        exact (h.set_port _).exists_rx hport hneed hnum hm
    have hcfg : u.cfg = s.cfg := (exec_keeps_cfg_port hu).1
    rw [List.map_cons, List.cons_append, drive_cons_of_exec hinv.cfg_wf (decode_rxCommand raw) hu]
    exact ih (hcfg ▸ hstage) (exec_keeps_invariant hport hu) (hcfg ▸ hnum)

/-- The VIN that the DataPackets `datas` announced by `C` spell (R98, R99). -/
def announcedVin (C : Frame) (datas : List Frame) : Bytes :=
  ((datas.flatMap chunk).take (min (totalLength C).toNat 17)).filter (·.toNat < 0x80)

theorem Gathered.exec_readVin (h : Gathered C datas s) (hr : s.rs = .complete)
    (hneed : datas.length = packetsNeeded (totalLength C).toNat) :
    exec .readVin s =
      .next (s.respond .ok (BitVec.ofNat 8 (announcedVin C datas).length :: announcedVin C datas)) := by
  obtain ⟨htl, -, hspells⟩ := h
  rw [announcedVin, ← vinDecode_eq_filter, ← htl]
  refine exec_readVin_of_vinBytes_eq_some hr (hspells.vinBytes ?_)
  rw [length_flatMap_chunk, hneed, htl]
  exact le_seven_mul_packetsNeeded _

end

/-! ### The whole retrieval -/

/-- Its first two commands take a retrieval to the reset state with its configuration (R128). -/
theorem exists_drive_retrieval {s : State} (hw : s.cfg.wf = true) (sa : Byte) (raws : List Bytes) :
    ∃ u, drive (retrieval sa raws) s = drive (raws.map rxCommand ++ [⟨0x05, []⟩]) u ∧ Invariant u ∧ u.rs = .idle ∧
      u.cfg = s.cfg := by
  have hreset : drive (retrieval sa raws) s = drive (⟨0x03, [sa]⟩ :: (raws.map rxCommand ++ [⟨0x05, []⟩])) _ :=
    drive_cons_of_exec (i := .reset) hw rfl rfl
  exact ⟨_, hreset.trans (drive_cons_of_exec (i := .buildReq sa) hw rfl rfl),
    invariant_of_acc_eq_nil hw rfl rfl rfl nofun fun _ => ⟨rfl, rfl⟩, rfl, rfl⟩

/-- Settles O59: RESET makes the past irrelevant, each RX takes the retrieval a stage on or leaves it where it is, and READ_VIN
reads the chunks gathered. -/
theorem retrievalReturnsTheAnnouncedVin : Obligations.RetrievalReturnsTheAnnouncedVin := by
  intro s sa raws C early datas late hw hmatched hneed hnum
  obtain ⟨u, hu, hinv, hr, hcfg⟩ := exists_drive_retrieval hw sa raws
  have hstage : Stage C datas (raws.filterMap (matched u.cfg)) u := .inl ⟨hr, early, late, by rw [hcfg, hmatched]⟩
  obtain ⟨v, hv, hinv', hvr, hg⟩ := hstage.exists_drive_rx hinv hneed (hcfg ▸ hnum) [⟨0x05, []⟩]
  have hread := hg.exec_readVin (s := { v with port := [] }) hvr hneed
  have hrun := (hu.trans hv).trans ((drive_cons_of_exec hinv'.cfg_wf rfl hread).trans (drive_nil _))
  obtain ⟨rs, hlen, hout⟩ := exists_responses_of_drive hrun
  rw [show (retrieval sa raws).length = raws.length + 3 by simp [retrieval]] at hlen
  obtain ⟨qs, rfl⟩ := List.suffix_of_suffix_length_le ⟨v.out, hout⟩ (List.suffix_append s.out rs)
    (by rw [hlen, List.length_singleton]; omega)
  rw [← List.append_assoc] at hout
  exact ⟨_, qs, hrun, hvr, by simpa using hlen, hout⟩

end Sys2Proof.Machine
end
